-- ==== Sys2Proof/Word.lean ====
section
/-! DEFINITION. The machine's word, byte and register-index types (spec/00_scope.md R3, R5). -/

namespace Sys2Proof

/-- A word: a register, an address, a memory cell's contents, an instruction (R3: `XLEN`, `WORD`,
`ALEN` are 16). Addition of words wraps modulo 2^16 (R5). -/
abbrev Word := BitVec 16

/-- A character of the I/O capability or a byte of an image file (R3 `CHARLEN`, R7). -/
abbrev Byte := BitVec 8

/-- The index of a general register, R0 to R7 (R10: every 3-bit value is a valid index). -/
abbrev Reg := Fin 8

end Sys2Proof
end

