-- ==== Sys2Proof/Syntax.lean ====
section
/-! DEFINITION. The instructions: one constructor per row of spec/opcode_table.json, with the operand
fields of spec/30_encoding.md R52. Bits an instruction ignores (R55) are no operands; the reserved
family keeps its 12 low bits, since the fault record holds the whole word (R140). -/

namespace Sys2Proof

/-- An instruction. The comment on each constructor names its row and its rule. -/
inductive Instr where
  /-- BR (R90): condition bits n, z, p and off9. -/
  | br (n z p : Bool) (off9 : BitVec 9)
  /-- ADD, register form (R80). -/
  | addReg (dr sr1 sr2 : Reg)
  /-- ADD, immediate form (R81). -/
  | addImm (dr sr1 : Reg) (imm5 : BitVec 5)
  /-- LD (R100). -/
  | ld (dr : Reg) (off9 : BitVec 9)
  /-- ST (R104). -/
  | st (sr : Reg) (off9 : BitVec 9)
  /-- JSR (R93). -/
  | jsr (off11 : BitVec 11)
  /-- JSRR (R94). -/
  | jsrr (base : Reg)
  /-- AND, register form (R82). -/
  | andReg (dr sr1 sr2 : Reg)
  /-- AND, immediate form (R83). -/
  | andImm (dr sr1 : Reg) (imm5 : BitVec 5)
  /-- LDR (R102). -/
  | ldr (dr base : Reg) (off6 : BitVec 6)
  /-- STR (R106). -/
  | str (sr base : Reg) (off6 : BitVec 6)
  /-- RESERVED_8 (R140): opcode value 8 and the word's other bits. -/
  | reserved8 (rest : BitVec 12)
  /-- NOT (R84). -/
  | not (dr sr : Reg)
  /-- LDI (R101). -/
  | ldi (dr : Reg) (off9 : BitVec 9)
  /-- STI (R105). -/
  | sti (sr : Reg) (off9 : BitVec 9)
  /-- JMP (R91). -/
  | jmp (base : Reg)
  /-- RET (R92): the words of JMP with base register 7. -/
  | ret
  /-- RESERVED_13 (R140): opcode value 13 and the word's other bits. -/
  | reserved13 (rest : BitVec 12)
  /-- LEA (R103). -/
  | lea (dr : Reg) (off9 : BitVec 9)
  /-- TRAP (R120): the generic row, any vector. -/
  | trap (vect : BitVec 8)
  /-- GETC (R122). -/
  | getc
  /-- OUT (R124). -/
  | out
  /-- PUTS (R126). -/
  | puts
  /-- IN (R130). -/
  | inp
  /-- PUTSP (R132). -/
  | putsp
  /-- HALT (R134). -/
  | halt
  /-- TRAP_OTHER (R136): a vector that is none of the six services'. -/
  | trapOther (vect : BitVec 8)
  deriving DecidableEq, Repr

end Sys2Proof
end

