-- ==== Sys2Proof/Decode.lean ====
section
/-! DEFINITION. Instruction encoding (spec/30_encoding.md): opcode values, trap vectors, fields, the
decoder and, after it, the encoder. The numbers are the spec's R52, R56 and R57, which the spec
itself supplies from general knowledge: PRESUMED, unsafe (log entries 9 and 10). -/

namespace Sys2Proof

/-! ## Opcode values (R56) -/

def opcBr : BitVec 4 := 0#4
def opcAdd : BitVec 4 := 1#4
def opcLd : BitVec 4 := 2#4
def opcSt : BitVec 4 := 3#4
def opcJsr : BitVec 4 := 4#4
def opcAnd : BitVec 4 := 5#4
def opcLdr : BitVec 4 := 6#4
def opcStr : BitVec 4 := 7#4
/-- The reserved family's first value (R58, D6). -/
def opcReserved8 : BitVec 4 := 8#4
def opcNot : BitVec 4 := 9#4
def opcLdi : BitVec 4 := 10#4
def opcSti : BitVec 4 := 11#4
def opcJmp : BitVec 4 := 12#4
/-- The reserved family's second value (R58, D6). -/
def opcReserved13 : BitVec 4 := 13#4
def opcLea : BitVec 4 := 14#4
def opcTrap : BitVec 4 := 15#4

/-! ## Trap vectors (R57) -/

def tvGetc : BitVec 8 := 0x20#8
def tvOut : BitVec 8 := 0x21#8
def tvPuts : BitVec 8 := 0x22#8
def tvIn : BitVec 8 := 0x23#8
def tvPutsp : BitVec 8 := 0x24#8
def tvHalt : BitVec 8 := 0x25#8

/-- The six vectors that name a service (R57). -/
def serviceVectors : List (BitVec 8) := [tvGetc, tvOut, tvPuts, tvIn, tvPutsp, tvHalt]

/-! ## Fields (R52, "Field extraction, for a decoder") -/

/-- A 3-bit register field as a register index (R54). -/
def regOf (b : BitVec 3) : Reg := b.toFin
/-- A register index as the 3-bit field that names it (R54). -/
def regBits (r : Reg) : BitVec 3 := BitVec.ofFin r

/-- `instr[15:12]` (R51). -/
def fieldOpcode (w : Word) : BitVec 4 := w.extractLsb' 12 4
/-- DR, or SR of a store: `instr[11:9]`. -/
def fieldDr (w : Word) : Reg := regOf (w.extractLsb' 9 3)
/-- SR1, BaseR, or SR of NOT: `instr[8:6]`. -/
def fieldSr1 (w : Word) : Reg := regOf (w.extractLsb' 6 3)
/-- SR2: `instr[2:0]`. -/
def fieldSr2 (w : Word) : Reg := regOf (w.extractLsb' 0 3)
/-- `instr[4:0]`. -/
def fieldImm5 (w : Word) : BitVec 5 := w.extractLsb' 0 5
/-- `instr[5:0]`. -/
def fieldOff6 (w : Word) : BitVec 6 := w.extractLsb' 0 6
/-- `instr[8:0]`. -/
def fieldOff9 (w : Word) : BitVec 9 := w.extractLsb' 0 9
/-- `instr[10:0]`. -/
def fieldOff11 (w : Word) : BitVec 11 := w.extractLsb' 0 11
/-- `instr[7:0]`. -/
def fieldVect (w : Word) : BitVec 8 := w.extractLsb' 0 8
/-- The 12 bits below the opcode. -/
def fieldRest (w : Word) : BitVec 12 := w.extractLsb' 0 12

/-! ## The decoder (R51, R56, R71): total on words -/

/-- The row of a TRAP word by its vector (R57). A vector that names no service is TRAP_OTHER's
(R136). DESIGN CHOICE, safe: the generic row TRAP has the same words and is never answered
(log entry 24). -/
def decodeTrap (v : BitVec 8) : Instr :=
  if v = tvGetc then .getc
  else if v = tvOut then .out
  else if v = tvPuts then .puts
  else if v = tvIn then .inp
  else if v = tvPutsp then .putsp
  else if v = tvHalt then .halt
  else .trapOther v

/-- The instruction of a word: the opcode first, then bit 5 for ADD and AND, bit 11 for JSR, the
vector for TRAP, the base register for RET (R51, R71). Every word has exactly one (R71); the bits an
instruction does not use are not looked at (R55). -/
def decodeWord (w : Word) : Instr :=
  if fieldOpcode w = opcBr then
    .br (w.getLsbD 11) (w.getLsbD 10) (w.getLsbD 9) (fieldOff9 w)
  else if fieldOpcode w = opcAdd then
    if w.getLsbD 5 then .addImm (fieldDr w) (fieldSr1 w) (fieldImm5 w)
    else .addReg (fieldDr w) (fieldSr1 w) (fieldSr2 w)
  else if fieldOpcode w = opcLd then .ld (fieldDr w) (fieldOff9 w)
  else if fieldOpcode w = opcSt then .st (fieldDr w) (fieldOff9 w)
  else if fieldOpcode w = opcJsr then
    if w.getLsbD 11 then .jsr (fieldOff11 w) else .jsrr (fieldSr1 w)
  else if fieldOpcode w = opcAnd then
    if w.getLsbD 5 then .andImm (fieldDr w) (fieldSr1 w) (fieldImm5 w)
    else .andReg (fieldDr w) (fieldSr1 w) (fieldSr2 w)
  else if fieldOpcode w = opcLdr then .ldr (fieldDr w) (fieldSr1 w) (fieldOff6 w)
  else if fieldOpcode w = opcStr then .str (fieldDr w) (fieldSr1 w) (fieldOff6 w)
  else if fieldOpcode w = opcNot then .not (fieldDr w) (fieldSr1 w)
  else if fieldOpcode w = opcLdi then .ldi (fieldDr w) (fieldOff9 w)
  else if fieldOpcode w = opcSti then .sti (fieldDr w) (fieldOff9 w)
  else if fieldOpcode w = opcJmp then
    if fieldSr1 w = 7 then .ret else .jmp (fieldSr1 w)
  else if fieldOpcode w = opcLea then .lea (fieldDr w) (fieldOff9 w)
  else if fieldOpcode w = opcTrap then decodeTrap (fieldVect w)
  else if fieldOpcode w = opcReserved8 then .reserved8 (fieldRest w)
  else .reserved13 (fieldRest w)

/-- Why a byte sequence holds no instruction. -/
inductive DecodeError where
  /-- Fewer than the two bytes of one word are left (R50). -/
  | truncated
  deriving DecidableEq, Repr

/-- A word from two bytes of an image file, the byte at the lower offset being the high one
(spec/70_reset_and_hazards.md R162). -/
def wordOfBytes (hi lo : Byte) : Word := hi ++ lo

/-- The decoder on bytes, total: the first instruction of a byte sequence in the image file's order
(R162) and the bytes after it. Inside the core a word has no byte order (R34); log entry 28. -/
def decodeBytes : List Byte → Except DecodeError (Instr × List Byte)
  | hi :: lo :: rest => .ok (decodeWord (wordOfBytes hi lo), rest)
  | _ => .error .truncated

/-- The instruction the decoder reads from an instruction whose bits are w, numbered as
spec/opcode_table.json numbers them: one word (R50), so none for more than 16 bits. -/
def decodeTableWord (nbits w : Nat) : Option Instr :=
  if nbits ≤ 16 then some (decodeWord (BitVec.ofNat 16 (w % 2 ^ nbits))) else none

/-! ## The encoder (R52, R55, R56) -/

/-- The word of an instruction. Ignored bits are written as R55 says an assembler should: 0, but
NOT's bits [5:0] as 111111. -/
def encode : Instr → Word
  | .br n z p off9 => opcBr ++ BitVec.ofBool n ++ BitVec.ofBool z ++ BitVec.ofBool p ++ off9
  | .addReg dr sr1 sr2 => opcAdd ++ regBits dr ++ regBits sr1 ++ 0#1 ++ 0#2 ++ regBits sr2
  | .addImm dr sr1 imm5 => opcAdd ++ regBits dr ++ regBits sr1 ++ 1#1 ++ imm5
  | .ld dr off9 => opcLd ++ regBits dr ++ off9
  | .st sr off9 => opcSt ++ regBits sr ++ off9
  | .jsr off11 => opcJsr ++ 1#1 ++ off11
  | .jsrr base => opcJsr ++ 0#1 ++ 0#2 ++ regBits base ++ 0#6
  | .andReg dr sr1 sr2 => opcAnd ++ regBits dr ++ regBits sr1 ++ 0#1 ++ 0#2 ++ regBits sr2
  | .andImm dr sr1 imm5 => opcAnd ++ regBits dr ++ regBits sr1 ++ 1#1 ++ imm5
  | .ldr dr base off6 => opcLdr ++ regBits dr ++ regBits base ++ off6
  | .str sr base off6 => opcStr ++ regBits sr ++ regBits base ++ off6
  | .reserved8 rest => opcReserved8 ++ rest
  | .not dr sr => opcNot ++ regBits dr ++ regBits sr ++ 0b111111#6
  | .ldi dr off9 => opcLdi ++ regBits dr ++ off9
  | .sti sr off9 => opcSti ++ regBits sr ++ off9
  | .jmp base => opcJmp ++ 0#3 ++ regBits base ++ 0#6
  | .ret => opcJmp ++ 0#3 ++ regBits 7 ++ 0#6
  | .reserved13 rest => opcReserved13 ++ rest
  | .lea dr off9 => opcLea ++ regBits dr ++ off9
  | .trap vect => opcTrap ++ 0#4 ++ vect
  | .getc => opcTrap ++ 0#4 ++ tvGetc
  | .out => opcTrap ++ 0#4 ++ tvOut
  | .puts => opcTrap ++ 0#4 ++ tvPuts
  | .inp => opcTrap ++ 0#4 ++ tvIn
  | .putsp => opcTrap ++ 0#4 ++ tvPutsp
  | .halt => opcTrap ++ 0#4 ++ tvHalt
  | .trapOther vect => opcTrap ++ 0#4 ++ vect

/-- The bytes of an instruction in an image file: the high byte first (R162). -/
def encodeBytes (i : Instr) : List Byte :=
  [(encode i).extractLsb' 8 8, (encode i).extractLsb' 0 8]

/-- The row the decoder answers for an instruction's word. Three rows overlap others on purpose
(R56): JMP with base register 7 is RET, and TRAP is the row its vector selects. Every other
instruction is its own. -/
def canonical : Instr → Instr
  | .br n z p off9 => .br n z p off9
  | .addReg dr sr1 sr2 => .addReg dr sr1 sr2
  | .addImm dr sr1 imm5 => .addImm dr sr1 imm5
  | .ld dr off9 => .ld dr off9
  | .st sr off9 => .st sr off9
  | .jsr off11 => .jsr off11
  | .jsrr base => .jsrr base
  | .andReg dr sr1 sr2 => .andReg dr sr1 sr2
  | .andImm dr sr1 imm5 => .andImm dr sr1 imm5
  | .ldr dr base off6 => .ldr dr base off6
  | .str sr base off6 => .str sr base off6
  | .reserved8 rest => .reserved8 rest
  | .not dr sr => .not dr sr
  | .ldi dr off9 => .ldi dr off9
  | .sti sr off9 => .sti sr off9
  | .jmp base => if base = 7 then .ret else .jmp base
  | .ret => .ret
  | .reserved13 rest => .reserved13 rest
  | .lea dr off9 => .lea dr off9
  | .trap vect => decodeTrap vect
  | .getc => .getc
  | .out => .out
  | .puts => .puts
  | .inp => .inp
  | .putsp => .putsp
  | .halt => .halt
  | .trapOther vect => .trapOther vect

end Sys2Proof
end

