-- ==== Sys2Proof/Config.lean ====
section
/-! DEFINITION. What the spec leaves to an implementation: constants with no value in the model, so
that a claim holds for every value of them (spec/00_scope.md R3, spec/93_implementation_defined.md). -/

namespace Sys2Proof

/-- The two values of the parameter `KBSR_LOW_BITS` (R31): what a keyboard poll does to bits
[14:0] of the status word. -/
inductive KbsrLowBits where
  | preserve
  | clear
  deriving DecidableEq, Repr, Inhabited

/-- `KBSR_LOW_BITS`, OPEN in the spec (D7, U7). DESIGN CHOICE, safe: no value is chosen
(log entry 3). -/
opaque Config.kbsrLowBits : KbsrLowBits

/-- `IN_PROMPT`, the characters the IN service writes before it reads, OPEN in the spec and possibly
empty (R130, D12, U4). DESIGN CHOICE, safe: no value is chosen (log entry 4). -/
opaque Config.inPrompt : List Byte

/-- The free value that answers the n-th call of `IO.Avail` when the environment's script has run
out (R23: "a free Boolean draw at each call", D26). DESIGN CHOICE, safe (log entry 5). -/
opaque Config.availDraw : Nat → Bool

end Sys2Proof
end

