-- ==== Sys2Proof/Machine/State.lean ====
section
/-! DEFINITION. The machine's state as plain data (spec/10_state.md), the reasons a step can stop, and
the state after reset. -/

namespace Sys2Proof.Machine

/-- The condition flags: exactly one is set, "No other combination is ever valid" (R14). R14 lets a
model keep them as three values (log entry 12). -/
inductive Cond where
  | p | z | n
  deriving DecidableEq, Repr

/-- The run state (R16). -/
inductive Run where
  | running | halted
  deriving DecidableEq, Repr

/-- `IllegalOpcode(instr, addr)`: the word and the address it was fetched from (R21, R140). -/
structure FaultRecord where
  instr : Word
  addr : Word
  deriving DecidableEq, Repr

/-- One entry of the environment's record of a run (R25). -/
inductive IoEvent where
  /-- an answer of `IO.Avail` (R23) -/
  | availAnswer (b : Bool)
  /-- a character taken by `IO.ReadChar` (R22) -/
  | readChar (c : Byte)
  /-- a character given to `IO.WriteChar` (R24) -/
  | writeChar (c : Byte)
  /-- a call of `IO.Flush` (R24) -/
  | flush
  deriving DecidableEq, Repr

/-- A trap service that has begun and not completed: GETC and IN waiting for a character (R22, R121),
PUTS and PUTSP at the next address of a scan that has met no zero word in a whole turn of the address
space (R129). DESIGN CHOICE, unsafe (log entries 7 and 8): the state between is no architectural state
of the spec (R75). -/
inductive Service where
  | getc
  | inp
  | puts (a : Word)
  | putsp (a : Word)
  deriving DecidableEq, Repr

/-- One listed word of memory: its address and its contents. The spec's unit of addressing is the
16-bit word and it has no byte address (R17), so the cell is a word (log entry 1). -/
abbrev Cell := Nat × Word

/-- Memory: the listed words, in the canonical form of `Memory.wf`. -/
abbrev Memory := List Cell

/-- The whole state. `pending` and `availCalls` are the model's own; everything else is the spec's. -/
structure State where
  /-- `x[0]` to `x[7]` (R10) -/
  regs : Vector Word 8
  /-- the program counter (R12) -/
  pc : Word
  /-- the condition flags (R14) -/
  cond : Cond
  /-- the run state (R16) -/
  run : Run
  /-- the fault record (R21) -/
  fault : Option FaultRecord
  /-- the 65536 words of memory, KBSR and KBDR among them (R17, R19, R20) -/
  mem : Memory
  /-- the characters the environment has still to deliver, the next one first (R22) -/
  input : List Byte
  /-- the environment's answers to the coming calls of `IO.Avail`, the next one first (R23) -/
  avail : List Bool
  /-- how often `IO.Avail` was called; it feeds the free value that answers when `avail` is used up
  (log entry 5) -/
  availCalls : Nat
  /-- the environment's record, the oldest event first (R25) -/
  record : List IoEvent
  /-- the service in progress, if any (log entries 7 and 8) -/
  pending : Option Service
  deriving DecidableEq, Repr

/-- Why a step stops with a fault. -/
inductive Fault where
  /-- Raised by `step`, in every state whose fault record is set: "the machine takes no further step,
  ever" (R140). Safe: the machine stops where the hardware's process aborts. -/
  | illegalOpcode (instr addr : Word)
  deriving DecidableEq, Repr

/-- Why a step has no meaning. -/
inductive Refusal where
  /-- Raised by an arm of `exec` for an instruction that has no meaning yet; none is left. Safe. -/
  | notModelled (mnemonic : String)
  /-- Raised by `step` in a halted state: "no step exists from a state with `RUN = Halted`" (R16).
  Safe. -/
  | halted
  deriving DecidableEq, Repr

/-- The machine right after reset (R160, section 8 of spec/10_state.md): registers zero, pc 0x3000, the
flag Zero, Running, no fault, nothing recorded. No memory word is listed and the environment has
delivered nothing: DESIGN CHOICE, unsafe (log entries 2, 5, 6). -/
def State.reset : State where
  regs := Vector.replicate 8 0#16
  pc := 0x3000#16
  cond := .z
  run := .running
  fault := none
  mem := []
  input := []
  avail := []
  availCalls := 0
  record := []
  pending := none

end Sys2Proof.Machine
end

