-- ==== Sys2Proof/Machine/Ops.lean ====
section
/-! DEFINITION. The named operations every meaning is written over: bytes and words, memory and its two
access primitives, registers, the I/O capability, the keyboard poll, raising the one exception, and
entering a trap service. -/

namespace Sys2Proof.Machine

/-! ## Bytes of a word -/

/-- `zext_16` of a character (spec/00_scope.md R7, D8). -/
def zext16 (c : Byte) : Word := c.setWidth 16
/-- `w[7:0]`. -/
def lowByte (w : Word) : Byte := w.extractLsb' 0 8
/-- `w[15:8]`. -/
def highByte (w : Word) : Byte := w.extractLsb' 8 8
/-- `byte_swap16` (R7); no instruction uses it. -/
def byteSwap16 (w : Word) : Word := lowByte w ++ highByte w

/-! ## Memory (spec/10_state.md R17, R18) -/

/-- What an unlisted address reads as. The spec leaves the reset contents OPEN (`MEM_INIT`, R18, D10):
DESIGN CHOICE 0, unsafe (log entry 2). -/
def unlisted : Word := 0#16

/-- The contents listed for an address. -/
def findCell : List Cell → Nat → Word
  | [], _ => unlisted
  | (k, v) :: rest, a => if k = a then v else findCell rest a

/-- A cell put before the first one of a greater address. -/
def insertCell (c : Cell) : List Cell → List Cell
  | [] => [c]
  | d :: rest => if c.1 < d.1 then c :: d :: rest else d :: insertCell c rest

/-- `M[a]`, with no side effect (R8). -/
def Memory.read (m : Memory) (a : Word) : Word := findCell m a.toNat

/-- `M[a] <- v`. -/
def Memory.write (m : Memory) (a : Word) (v : Word) : Memory :=
  if v = unlisted then m.filter (fun c => c.1 != a.toNat)
  else insertCell (a.toNat, v) (m.filter (fun c => c.1 != a.toNat))

/-- The canonical form: addresses strictly rising and below 65536, and no cell that equals what an
unlisted address reads as. -/
abbrev Memory.wf (m : Memory) : Prop :=
  m.Pairwise (fun c d => c.1 < d.1) ∧ ∀ c ∈ m, c.1 < 65536 ∧ c.2 ≠ unlisted

/-! ## Registers and the other fields -/

/-- `x[i]` (R10). -/
def State.reg (s : State) (i : Reg) : Word := s.regs[i]

/-- `x[i] <- v` (R10). -/
def State.setReg (s : State) (i : Reg) (v : Word) : State := { s with regs := s.regs.set i v }

/-- `pc <- target` (R12). -/
def State.setPc (s : State) (v : Word) : State := { s with pc := v }

def State.setCond (s : State) (c : Cond) : State := { s with cond := c }

def State.setRun (s : State) (r : Run) : State := { s with run := r }

def State.setPending (s : State) (p : Option Service) : State := { s with pending := p }

/-- `M[a] <- v` on the state's memory. -/
def State.poke (s : State) (a : Word) (v : Word) : State := { s with mem := s.mem.write a v }

/-! ## The I/O capability (R22 to R25) -/

/-- Adds events to the environment's record. `IO.WriteChar` and `IO.Flush` are this and nothing else:
neither can fail or block (R24, D27; log entry 22). -/
def State.log (s : State) (es : List IoEvent) : State := { s with record := s.record ++ es }

/-- `IO.ReadChar` where a character c has arrived and rest are those after it (R22). -/
def State.takeChar (s : State) (c : Byte) (rest : List Byte) : State :=
  { s with input := rest, record := s.record ++ [.readChar c] }

/-- What `IO.Avail` answers (R23): the environment's script, then a free value; never true when no
character can be read at once (the law of R23). -/
def State.availAnswer (s : State) : Bool :=
  match s.input with
  | [] => false
  | _ :: _ =>
    match s.avail with
    | b :: _ => b
    | [] => Config.availDraw s.availCalls

/-- `IO.Avail`: it consumes no character (R23). -/
def State.askAvail (s : State) : State :=
  { s with
    avail := s.avail.tail
    availCalls := s.availCalls + 1
    record := s.record ++ [.availAnswer s.availAnswer] }

/-! ## The memory access layer (spec/20_memory.md) -/

/-- `KBSR_ADDR` (R19, D4): PRESUMED, unsafe (log entry 11). -/
def kbsrAddr : Word := 0xFE00#16
/-- `KBDR_ADDR` (R20, D4): PRESUMED, unsafe (log entry 11). -/
def kbdrAddr : Word := 0xFE02#16

/-- The status word a poll leaves, of the word before it and whether input was available (R31). -/
def kbsrAfterPoll (mode : KbsrLowBits) (ready : Bool) (old : Word) : Word :=
  match mode, ready with
  | .preserve, true => old ||| 0x8000#16
  | .clear, true => 0x8000#16
  | .preserve, false => old &&& 0x7FFF#16
  | .clear, false => 0x0000#16

/-- The status register rewritten by a poll that found, or did not find, input (R31). -/
def State.pokeKbsr (s : State) (ready : Bool) : State :=
  s.poke kbsrAddr (kbsrAfterPoll Config.kbsrLowBits ready (s.mem.read kbsrAddr))

/-- `PollKeyboard()` (R31). -/
def pollKeyboard (s : State) : State :=
  match s.availAnswer, s.input with
  | true, c :: rest => ((s.askAvail.takeChar c rest).poke kbdrAddr (zext16 c)).pokeKbsr true
  | _, _ => s.askAvail.pokeKbsr false

/-- The state a `MemRead` of address a leaves: polled at `KBSR_ADDR`, else unchanged (R30). -/
def touch (a : Word) (s : State) : State := if a = kbsrAddr then pollKeyboard s else s

/-- The word a `MemRead` of address a answers (R30). -/
def fetched (a : Word) (s : State) : Word := (touch a s).mem.read a

/-- `MemRead(a, 1)` (R30): the word and the state after. -/
def memRead (a : Word) (s : State) : Word × State := (fetched a s, touch a s)

/-- `MemWrite(a, 1, v)` (R32): always a plain store. -/
def memWrite (a v : Word) (s : State) : State := s.poke a v

/-! ## The one exception, and trap entry -/

/-- `raise IllegalOpcode(instr, addr)` (spec/60_exceptions.md R140): the record is set; no register,
flag or memory word changes, `pc` stays at addr + 1, `RUN` stays Running. `pc` is already incremented
here, so the faulting word's address is `pc - 1`. There is no return from it. -/
def raiseIllegalOpcode (instr : Word) (s : State) : State :=
  { s with fault := some { instr := instr, addr := s.pc - 1#16 } }

/-- Entry to a trap service (R120, R144): `x[7] <- pc` and nothing else. There is no return from a
trap, since no handler is entered (R145). -/
def enterTrap (s : State) : State := s.setReg 7 s.pc

/-- The words of the string at a, up to the first zero word (not inclusive), by plain array reads
(R126, R128, R129), looking at n words at most, and whether a zero word was met. -/
def stringWords (m : Memory) : Nat → Word → List Word × Bool
  | 0, _ => ([], false)
  | n + 1, a =>
    if m.read a = 0#16 then ([], true)
    else ((m.read a) :: (stringWords m n (a + 1#16)).1, (stringWords m n (a + 1#16)).2)

end Sys2Proof.Machine
end

