-- ==== Sys2Proof/Machine/Boot.lean ====
section
/-! DEFINITION. Reset with `MEM_INIT` and images, the host's action before the first step
(spec/70_reset_and_hazards.md R160 to R164). -/

namespace Sys2Proof.Machine

/-- The memory whose every word is what f gives for its address: `MEM_INIT` as data (R18). -/
def Memory.ofFunction (f : Word → Word) : Memory :=
  (List.range 65536).filterMap fun a =>
    if f (BitVec.ofNat 16 a) = unlisted then none else some (a, f (BitVec.ofNat 16 a))

/-- Content words stored at consecutive addresses from addr, "stopping at end-of-file or when the
remaining address space ... is exhausted" (R163): no wrap to 0, a trailing odd byte ignored (D21, log
entry 23). -/
def loadWords (m : Memory) (addr : Nat) : List Byte → Memory
  | hi :: lo :: rest =>
    if addr < 65536 then
      loadWords (m.write (BitVec.ofNat 16 addr) (wordOfBytes hi lo)) (addr + 1) rest
    else m
  | _ => m

/-- `LoadImage` (R162, R163): the first word is the origin, high byte first. A file of fewer than two
bytes loads nothing (D21, log entry 23). -/
def loadImage (m : Memory) : List Byte → Memory
  | hi :: lo :: content => loadWords m (wordOfBytes hi lo).toNat content
  | _ => m

/-- The images loaded in the order given, a later one over an earlier (R164). -/
def loadImages (m : Memory) (images : List (List Byte)) : Memory := images.foldl loadImage m

/-- `Reset(images)` with `MEM_INIT` as an argument (R160, R161). -/
def State.resetWith (memInit : Word → Word) (images : List (List Byte)) : State :=
  { State.reset with mem := loadImages (Memory.ofFunction memInit) images }

end Sys2Proof.Machine
end

