-- ==== Sys2Proof/Machine/Cycle.lean ====
section
/-! DEFINITION. Fetch and increment, the part of the step before `Execute` (spec/40_cycle.md R70). -/

namespace Sys2Proof.Machine

/-- The word the fetch reads: `MemRead(pc, 1)` (R70). -/
def fetchWord (s : State) : Word := (memRead s.pc s).1

/-- The state `Execute` runs on: after the fetch, with `pc` incremented modulo 65536 (R70). -/
def afterFetch (s : State) : State := (memRead s.pc s).2.setPc (s.pc + 1#16)

/-- An instruction word placed where the next fetch reads (used by `State.withFetchWord`). -/
def placeWord (s : State) (w : Word) : State := s.poke s.pc w

end Sys2Proof.Machine
end

