-- ==== Sys2Proof/Machine/Flags.lean ====
section
/-! DEFINITION. The condition flags: classification, `setcc`, and the branch test (spec/40_cycle.md R72,
spec/42_control.md R90). -/

namespace Sys2Proof.Machine

/-- The numeric encoding `FL_P`, `FL_Z`, `FL_N` (R14, D3). Nothing observable depends on it. -/
def Cond.bits : Cond → BitVec 3
  | .p => 0b001#3
  | .z => 0b010#3
  | .n => 0b100#3

/-- The flag of a value: zero, high bit set, else positive (R72). -/
def classify (v : Word) : Cond :=
  if v = 0#16 then .z else if v.getLsbD 15 then .n else .p

/-- `setcc(i)` (R72): classifies the register's value after it was written. -/
def setcc (i : Reg) (s : State) : State := s.setCond (classify (s.reg i))

/-- `x[i] <- v` and then `setcc(i)`: how every flag-updating instruction ends (R73). -/
def writeFlagged (i : Reg) (v : Word) (s : State) : State := setcc i (s.setReg i v)

/-- BR's `taken` (R90): a requested flag bit matches the current flag. -/
def brTaken (n z p : Bool) (c : Cond) : Bool :=
  match c with
  | .n => n
  | .z => z
  | .p => p

end Sys2Proof.Machine
end

