-- ==== Sys2Proof/Machine/Operands.lean ====
section
/-! DEFINITION. Operand forms: sign-extended immediates (spec/30_encoding.md R53) and the addressing
modes (spec/43_load_store.md R107). In all of them `pc` is the already incremented program counter. -/

namespace Sys2Proof.Machine

/-- `sext_N` (spec/00_scope.md R6). -/
def sext {n : Nat} (v : BitVec n) : Word := v.signExtend 16

/-- PC-relative with off9 (R107): LD, ST, LEA, the pointer cell of LDI and STI, BR's target (R90). -/
def pcRel9 (off9 : BitVec 9) (s : State) : Word := s.pc + sext off9

/-- PC-relative with off11: JSR's target (R93). -/
def pcRel11 (off11 : BitVec 11) (s : State) : Word := s.pc + sext off11

/-- Base + offset (R107): LDR, STR. -/
def baseOff6 (base : Reg) (off6 : BitVec 6) (s : State) : Word := s.reg base + sext off6

/-- The pointer of LDI and STI, read through `MemRead` (R101, R105), and the state after. -/
def pointer (off9 : BitVec 9) (s : State) : Word × State := memRead (pcRel9 off9 s) s

end Sys2Proof.Machine
end

