-- ==== Sys2Proof/Machine/Alu.lean ====
section
/-! DEFINITION. Arithmetic and logic: ADD, AND, NOT (spec/41_alu.md). Sources are read before the
destination is written. -/

namespace Sys2Proof.Machine

/-- ADD, register form (R80). -/
def execAddReg (dr sr1 sr2 : Reg) (s : State) : Host.Outcome State Fault Refusal :=
  .next (writeFlagged dr (s.reg sr1 + s.reg sr2) s)

/-- ADD, immediate form (R81). -/
def execAddImm (dr sr1 : Reg) (imm5 : BitVec 5) (s : State) : Host.Outcome State Fault Refusal :=
  .next (writeFlagged dr (s.reg sr1 + sext imm5) s)

/-- AND, register form (R82). -/
def execAndReg (dr sr1 sr2 : Reg) (s : State) : Host.Outcome State Fault Refusal :=
  .next (writeFlagged dr (s.reg sr1 &&& s.reg sr2) s)

/-- AND, immediate form (R83): the immediate is sign-extended. -/
def execAndImm (dr sr1 : Reg) (imm5 : BitVec 5) (s : State) : Host.Outcome State Fault Refusal :=
  .next (writeFlagged dr (s.reg sr1 &&& sext imm5) s)

/-- NOT (R84). -/
def execNot (dr sr : Reg) (s : State) : Host.Outcome State Fault Refusal :=
  .next (writeFlagged dr (~~~ s.reg sr) s)

end Sys2Proof.Machine
end

