-- ==== Sys2Proof/Machine/Control.lean ====
section
/-! DEFINITION. Control transfer: BR, JMP, RET, JSR, JSRR (spec/42_control.md). -/

namespace Sys2Proof.Machine

/-- BR (R90). -/
def execBr (n z p : Bool) (off9 : BitVec 9) (s : State) : Host.Outcome State Fault Refusal :=
  .next (if brTaken n z p s.cond then s.setPc (pcRel9 off9 s) else s)

/-- JMP (R91): the value held in the register, not its index. -/
def execJmp (base : Reg) (s : State) : Host.Outcome State Fault Refusal :=
  .next (s.setPc (s.reg base))

/-- RET (R92): `pc <- x[7]`. -/
def execRet (s : State) : Host.Outcome State Fault Refusal :=
  .next (s.setPc (s.reg 7))

/-- JSR (R93): R7 gets the incremented pc, before the offset is applied. -/
def execJsr (off11 : BitVec 11) (s : State) : Host.Outcome State Fault Refusal :=
  .next ((s.setReg 7 s.pc).setPc (pcRel11 off11 s))

/-- JSRR (R94): R7 first, then the base is read, so `JSRR R7` goes on at the next instruction
(D16, log entry 18). -/
def execJsrr (base : Reg) (s : State) : Host.Outcome State Fault Refusal :=
  .next ((s.setReg 7 s.pc).setPc ((s.setReg 7 s.pc).reg base))

end Sys2Proof.Machine
end

