-- ==== Sys2Proof/Machine/LoadStore.lean ====
section
/-! DEFINITION. Loads, stores and address computation (spec/43_load_store.md). -/

namespace Sys2Proof.Machine

/-- A load of the word at a, through `MemRead`, into DR with the flags (R100 to R102). -/
def loadFlagged (dr : Reg) (a : Word) (s : State) : State :=
  writeFlagged dr (memRead a s).1 (memRead a s).2

/-- LD (R100). -/
def execLd (dr : Reg) (off9 : BitVec 9) (s : State) : Host.Outcome State Fault Refusal :=
  .next (loadFlagged dr (pcRel9 off9 s) s)

/-- LDI (R101): the pointer read first, then the datum, both through `MemRead`. -/
def execLdi (dr : Reg) (off9 : BitVec 9) (s : State) : Host.Outcome State Fault Refusal :=
  .next (loadFlagged dr (pointer off9 s).1 (pointer off9 s).2)

/-- LDR (R102): the base is read before DR is written. -/
def execLdr (dr base : Reg) (off6 : BitVec 6) (s : State) : Host.Outcome State Fault Refusal :=
  .next (loadFlagged dr (baseOff6 base off6 s) s)

/-- LEA (R103): the address, no memory access, with the flags. -/
def execLea (dr : Reg) (off9 : BitVec 9) (s : State) : Host.Outcome State Fault Refusal :=
  .next (writeFlagged dr (pcRel9 off9 s) s)

/-- ST (R104). -/
def execSt (sr : Reg) (off9 : BitVec 9) (s : State) : Host.Outcome State Fault Refusal :=
  .next (memWrite (pcRel9 off9 s) (s.reg sr) s)

/-- STI (R105): the pointer through `MemRead`, the datum through `MemWrite`. -/
def execSti (sr : Reg) (off9 : BitVec 9) (s : State) : Host.Outcome State Fault Refusal :=
  .next (memWrite (pointer off9 s).1 (s.reg sr) (pointer off9 s).2)

/-- STR (R106). -/
def execStr (sr base : Reg) (off6 : BitVec 6) (s : State) : Host.Outcome State Fault Refusal :=
  .next (memWrite (baseOff6 base off6 s) (s.reg sr) s)

end Sys2Proof.Machine
end

