-- ==== Sys2Proof/Machine/Reserved.lean ====
section
/-! DEFINITION. The reserved opcode family: executing one of its words takes the machine's one exception
(spec/60_exceptions.md R140). -/

namespace Sys2Proof.Machine

/-- RESERVED_8 (R140): `raise IllegalOpcode` with the whole word. -/
def execReserved8 (rest : BitVec 12) (s : State) : Host.Outcome State Fault Refusal :=
  .next (raiseIllegalOpcode (opcReserved8 ++ rest) s)

/-- RESERVED_13 (R140): `raise IllegalOpcode` with the whole word. -/
def execReserved13 (rest : BitVec 12) (s : State) : Host.Outcome State Fault Refusal :=
  .next (raiseIllegalOpcode (opcReserved13 ++ rest) s)

end Sys2Proof.Machine
end

