-- ==== Sys2Proof/Machine/Trap.lean ====
section
/-! DEFINITION. TRAP and its six services (spec/44_trap.md). Every meaning writes R7 first (R120), by
`enterTrap`; then the service runs. A service that cannot complete yet is left in `State.pending`, and
`resume` goes on with it (log entries 7 and 8). -/

namespace Sys2Proof.Machine

/-! ## The services, after the R7 write -/

/-- GETC (R122). With no character arrived it waits (R22). -/
def serviceGetc (s : State) : State :=
  match s.input with
  | [] => s.setPending (some .getc)
  | c :: rest => writeFlagged 0 (zext16 c) ((s.takeChar c rest).setPending none)

/-- OUT (R124): the low byte of R0, then a flush. -/
def serviceOut (s : State) : State := s.log [.writeChar (lowByte (s.reg 0)), .flush]

/-- The characters PUTS writes for one word (R126): its low byte. -/
def putsChars (w : Word) : List Byte := [lowByte w]

/-- The characters PUTSP writes for one word (R132): the low byte always, the high byte if it is not
zero. -/
def putspChars (w : Word) : List Byte :=
  if highByte w = 0#8 then [lowByte w] else [lowByte w, highByte w]

/-- A scan of PUTS or PUTSP from address a (R126, R132): the characters of the words up to the first
zero word, then a flush. A whole turn of 65536 words without a zero word writes their characters and
leaves the scan where it began, for ever (R129). -/
def serviceString (chars : Word → List Byte) (again : Service) (a : Word) (s : State) : State :=
  if (stringWords s.mem 65536 a).2 then
    (s.log (((stringWords s.mem 65536 a).1.flatMap chars).map .writeChar ++ [.flush])).setPending none
  else
    (s.log (((stringWords s.mem 65536 a).1.flatMap chars).map .writeChar)).setPending (some again)

/-- PUTS scanning from a (R126). -/
def servicePuts (a : Word) (s : State) : State := serviceString putsChars (.puts a) a s

/-- PUTSP scanning from a (R132). -/
def servicePutsp (a : Word) (s : State) : State := serviceString putspChars (.putsp a) a s

/-- IN's prompt (R130, `IN_PROMPT`). -/
def promptIn (s : State) : State := s.log (Config.inPrompt.map .writeChar)

/-- IN after its prompt (R130): read, echo, flush, write R0, flags. With no character arrived it waits
(R22). -/
def finishIn (s : State) : State :=
  match s.input with
  | [] => s.setPending (some .inp)
  | c :: rest =>
    writeFlagged 0 (zext16 c)
      (((s.takeChar c rest).log [.writeChar c, .flush]).setPending none)

/-- HALT (R134): the run state, and nothing else; no output (D13, log entry 15). -/
def serviceHalt (s : State) : State := s.setRun .halted

/-- The trap dispatcher (R120): the service of a vector, or nothing (R136). -/
def dispatchTrap (vect : BitVec 8) (s : State) : State :=
  if vect = tvGetc then serviceGetc s
  else if vect = tvOut then serviceOut s
  else if vect = tvPuts then servicePuts (s.reg 0) s
  else if vect = tvIn then finishIn (promptIn s)
  else if vect = tvPutsp then servicePutsp (s.reg 0) s
  else if vect = tvHalt then serviceHalt s
  else s

/-- A service in progress taken up again: GETC and IN look for a character, PUTS and PUTSP scan on. -/
def resume (v : Service) (s : State) : State :=
  match v with
  | .getc => serviceGetc s
  | .inp => finishIn s
  | .puts a => servicePuts a s
  | .putsp a => servicePutsp a s

/-! ## The meanings -/

/-- TRAP, the generic row (R120). -/
def execTrap (vect : BitVec 8) (s : State) : Host.Outcome State Fault Refusal :=
  .next (dispatchTrap vect (enterTrap s))

/-- GETC (R122). -/
def execGetc (s : State) : Host.Outcome State Fault Refusal :=
  .next (serviceGetc (enterTrap s))

/-- OUT (R124). -/
def execOut (s : State) : Host.Outcome State Fault Refusal :=
  .next (serviceOut (enterTrap s))

/-- PUTS (R126). -/
def execPuts (s : State) : Host.Outcome State Fault Refusal :=
  .next (servicePuts ((enterTrap s).reg 0) (enterTrap s))

/-- IN (R130). -/
def execIn (s : State) : Host.Outcome State Fault Refusal :=
  .next (finishIn (promptIn (enterTrap s)))

/-- PUTSP (R132). -/
def execPutsp (s : State) : Host.Outcome State Fault Refusal :=
  .next (servicePutsp ((enterTrap s).reg 0) (enterTrap s))

/-- HALT (R134). -/
def execHalt (s : State) : Host.Outcome State Fault Refusal :=
  .next (serviceHalt (enterTrap s))

/-- TRAP_OTHER (R136): R7 is written and nothing more happens, whatever the vector (D14, log
entry 16). -/
def execTrapOther (_vect : BitVec 8) (s : State) : Host.Outcome State Fault Refusal :=
  .next (enterTrap s)

end Sys2Proof.Machine
end

