-- ==== Sys2Proof/Machine/Step.lean ====
section
/-! DEFINITION. One step of the machine (spec/40_cycle.md R70, R74). -/

namespace Sys2Proof.Machine

/-- One step. No step exists with a fault recorded (R140) or in a halted state (R16); an instruction in
progress goes on (log entries 7 and 8); else fetch, increment, decode and execute (R70). -/
def step (s : State) : Host.Outcome State Fault Refusal :=
  match s.fault, s.run, s.pending with
  | some r, _, _ => .fault (.illegalOpcode r.instr r.addr)
  | none, .halted, _ => .refused .halted
  | none, .running, some v => .next (resume v s)
  | none, .running, none => exec (decodeWord (fetchWord s)) (afterFetch s)

/-- s with an instruction of nbits bits stored where the next step fetches (log entry 26). At `KBSR_ADDR`
the fetch polls and rewrites that word (log entry 27). -/
def State.withFetchWord (s : State) (nbits w : Nat) : State :=
  placeWord s (BitVec.ofNat 16 (w % 2 ^ nbits))

end Sys2Proof.Machine
end

