-- ==== Sys2Proof/WellFormed.lean ====
section
/-! DEFINITION. Which terms of Instr are instructions. Register indexes and immediates are in range by
their types (spec/30_encoding.md R53, R54: every field value is legal); the one check left is
TRAP_OTHER's. -/

namespace Sys2Proof

/-- TRAP_OTHER's row holds the vectors that name no service (R136: "A TRAP whose vector is none of
the six"); every other term is well formed. -/
def Instr.WellFormed : Instr → Bool
  | .br _ _ _ _ => true
  | .addReg _ _ _ => true
  | .addImm _ _ _ => true
  | .ld _ _ => true
  | .st _ _ => true
  | .jsr _ => true
  | .jsrr _ => true
  | .andReg _ _ _ => true
  | .andImm _ _ _ => true
  | .ldr _ _ _ => true
  | .str _ _ _ => true
  | .reserved8 _ => true
  | .not _ _ => true
  | .ldi _ _ => true
  | .sti _ _ => true
  | .jmp _ => true
  | .ret => true
  | .reserved13 _ => true
  | .lea _ _ => true
  | .trap _ => true
  | .getc => true
  | .out => true
  | .puts => true
  | .inp => true
  | .putsp => true
  | .halt => true
  | .trapOther vect => !serviceVectors.contains vect

end Sys2Proof
end

