-- ==== Sys2Proof/Safety.lean ====
section
/-! DEFINITION. The terms claims are stated in: what an instruction may read and write by the spec's own
tables, frames between two states, and the invariant of the machine. -/

namespace Sys2Proof.Machine

/-! ## Frames -/

/-- Every register but those listed holds what it held. -/
def State.SameRegsExcept (s t : State) (ds : List Reg) : Prop := ∀ r, r ∉ ds → t.reg r = s.reg r

/-- Every word of memory reads as before. -/
def State.SameMemory (s t : State) : Prop := ∀ a, t.mem.read a = s.mem.read a

/-- Nothing was asked of, taken from or given to the environment. -/
def State.SameIo (s t : State) : Prop :=
  t.input = s.input ∧ t.avail = s.avail ∧ t.availCalls = s.availCalls ∧ t.record = s.record

/-- The run state, the fault record and the service in progress are as before. -/
def State.SameControl (s t : State) : Prop :=
  t.run = s.run ∧ t.fault = s.fault ∧ t.pending = s.pending

/-- The flag is the one R72's table gives the value. -/
def FlagOf (v : Word) (c : Cond) : Prop :=
  (v = 0x0000#16 → c = .z) ∧ (0x0001 ≤ v.toNat ∧ v.toNat ≤ 0x7FFF → c = .p) ∧
    (0x8000 ≤ v.toNat → c = .n)

/-- t is s with v in register dr and the flag of v, and nothing else changed. -/
def FlaggedResult (s t : State) (dr : Reg) (v : Word) : Prop :=
  t.reg dr = v ∧ FlagOf v t.cond ∧ s.SameRegsExcept t [dr] ∧ t.pc = s.pc ∧ s.SameMemory t ∧
    s.SameIo t ∧ s.SameControl t

/-- t is s with the word v stored at address a, and nothing else changed. -/
def StoredResult (s t : State) (a v : Word) : Prop :=
  t.mem.read a = v ∧ (∀ b, b ≠ a → t.mem.read b = s.mem.read b) ∧ s.SameRegsExcept t [] ∧
    t.cond = s.cond ∧ t.pc = s.pc ∧ s.SameIo t ∧ s.SameControl t

/-- t is s but for the program counter and the registers listed. -/
def ControlResult (s t : State) (pc : Word) (ds : List Reg) : Prop :=
  t.pc = pc ∧ t.cond = s.cond ∧ s.SameRegsExcept t ds ∧ s.SameMemory t ∧ s.SameIo t ∧
    s.SameControl t

/-- What every trap service but GETC, IN and HALT leaves: R7 holds the return address, and only the
environment's record may have grown, by es. -/
def OutputResult (s t : State) (es : List IoEvent) : Prop :=
  t.reg 7 = s.pc ∧ s.SameRegsExcept t [7] ∧ t.pc = s.pc ∧ t.cond = s.cond ∧ s.SameMemory t ∧
    t.input = s.input ∧ t.avail = s.avail ∧ t.availCalls = s.availCalls ∧
    t.record = s.record ++ es ∧ t.run = s.run ∧ t.fault = s.fault

/-- What GETC and IN leave when they have read c: R7 the return address, R0 the character with its
flag, the input without it, the record longer by es. -/
def InputResult (s t : State) (c : Byte) (rest : List Byte) (es : List IoEvent) : Prop :=
  t.reg 7 = s.pc ∧ t.reg 0 = 0#8 ++ c ∧ FlagOf (0#8 ++ c) t.cond ∧ s.SameRegsExcept t [0, 7] ∧
    t.pc = s.pc ∧ s.SameMemory t ∧ t.input = rest ∧ t.avail = s.avail ∧
    t.availCalls = s.availCalls ∧ t.record = s.record ++ es ∧ t.run = s.run ∧
    t.fault = s.fault ∧ t.pending = none

/-! ## What the spec's tables say of an instruction -/

/-- The flag-updating instructions (R73): TRAP counts where its vector is GETC's or IN's. -/
def updatesFlags : Instr → Bool
  | .br _ _ _ _ => false
  | .addReg _ _ _ => true
  | .addImm _ _ _ => true
  | .ld _ _ => true
  | .st _ _ => false
  | .jsr _ => false
  | .jsrr _ => false
  | .andReg _ _ _ => true
  | .andImm _ _ _ => true
  | .ldr _ _ _ => true
  | .str _ _ _ => false
  | .reserved8 _ => false
  | .not _ _ => true
  | .ldi _ _ => true
  | .sti _ _ => false
  | .jmp _ => false
  | .ret => false
  | .reserved13 _ => false
  | .lea _ _ => true
  | .trap v => v = tvGetc ∨ v = tvIn
  | .getc => true
  | .out => false
  | .puts => false
  | .inp => true
  | .putsp => false
  | .halt => false
  | .trapOther _ => false

/-- The general registers an instruction writes (the table under R11). -/
def registersWritten : Instr → List Reg
  | .br _ _ _ _ => []
  | .addReg dr _ _ => [dr]
  | .addImm dr _ _ => [dr]
  | .ld dr _ => [dr]
  | .st _ _ => []
  | .jsr _ => [7]
  | .jsrr _ => [7]
  | .andReg dr _ _ => [dr]
  | .andImm dr _ _ => [dr]
  | .ldr dr _ _ => [dr]
  | .str _ _ _ => []
  | .reserved8 _ => []
  | .not dr _ => [dr]
  | .ldi dr _ => [dr]
  | .sti _ _ => []
  | .jmp _ => []
  | .ret => []
  | .reserved13 _ => []
  | .lea dr _ => [dr]
  | .trap v => if v = tvGetc ∨ v = tvIn then [0, 7] else [7]
  | .getc => [0, 7]
  | .out => [7]
  | .puts => [7]
  | .inp => [0, 7]
  | .putsp => [7]
  | .halt => [7]
  | .trapOther _ => [7]

/-- Whether an instruction is one of the control transfers, the only ones that change the incremented
`pc` (the table under R12). -/
def transfersControl : Instr → Bool
  | .br _ _ _ _ => true
  | .addReg _ _ _ => false
  | .addImm _ _ _ => false
  | .ld _ _ => false
  | .st _ _ => false
  | .jsr _ => true
  | .jsrr _ => true
  | .andReg _ _ _ => false
  | .andImm _ _ _ => false
  | .ldr _ _ _ => false
  | .str _ _ _ => false
  | .reserved8 _ => false
  | .not _ _ => false
  | .ldi _ _ => false
  | .sti _ _ => false
  | .jmp _ => true
  | .ret => true
  | .reserved13 _ => false
  | .lea _ _ => false
  | .trap _ => false
  | .getc => false
  | .out => false
  | .puts => false
  | .inp => false
  | .putsp => false
  | .halt => false
  | .trapOther _ => false

/-- The addresses an instruction reads through `MemRead` after its fetch, in order (20_memory.md,
section 7). -/
def memReads (i : Instr) (s : State) : List Word :=
  match i with
  | .br _ _ _ _ => []
  | .addReg _ _ _ => []
  | .addImm _ _ _ => []
  | .ld _ off9 => [pcRel9 off9 s]
  | .st _ _ => []
  | .jsr _ => []
  | .jsrr _ => []
  | .andReg _ _ _ => []
  | .andImm _ _ _ => []
  | .ldr _ base off6 => [baseOff6 base off6 s]
  | .str _ _ _ => []
  | .reserved8 _ => []
  | .not _ _ => []
  | .ldi _ off9 => [pcRel9 off9 s, (pointer off9 s).1]
  | .sti _ off9 => [pcRel9 off9 s]
  | .jmp _ => []
  | .ret => []
  | .reserved13 _ => []
  | .lea _ _ => []
  | .trap _ => []
  | .getc => []
  | .out => []
  | .puts => []
  | .inp => []
  | .putsp => []
  | .halt => []
  | .trapOther _ => []

/-- The address an instruction stores to (20_memory.md, section 7). -/
def storeAddress (i : Instr) (s : State) : Option Word :=
  match i with
  | .br _ _ _ _ => none
  | .addReg _ _ _ => none
  | .addImm _ _ _ => none
  | .ld _ _ => none
  | .st _ off9 => some (pcRel9 off9 s)
  | .jsr _ => none
  | .jsrr _ => none
  | .andReg _ _ _ => none
  | .andImm _ _ _ => none
  | .ldr _ _ _ => none
  | .str _ base off6 => some (baseOff6 base off6 s)
  | .reserved8 _ => none
  | .not _ _ => none
  | .ldi _ _ => none
  | .sti _ off9 => some (pointer off9 s).1
  | .jmp _ => none
  | .ret => none
  | .reserved13 _ => none
  | .lea _ _ => none
  | .trap _ => none
  | .getc => none
  | .out => none
  | .puts => none
  | .inp => none
  | .putsp => none
  | .halt => none
  | .trapOther _ => none

/-- Whether an instruction takes a character from the input by itself (R22: GETC and IN). -/
def readsInput : Instr → Bool
  | .br _ _ _ _ => false
  | .addReg _ _ _ => false
  | .addImm _ _ _ => false
  | .ld _ _ => false
  | .st _ _ => false
  | .jsr _ => false
  | .jsrr _ => false
  | .andReg _ _ _ => false
  | .andImm _ _ _ => false
  | .ldr _ _ _ => false
  | .str _ _ _ => false
  | .reserved8 _ => false
  | .not _ _ => false
  | .ldi _ _ => false
  | .sti _ _ => false
  | .jmp _ => false
  | .ret => false
  | .reserved13 _ => false
  | .lea _ _ => false
  | .trap v => v = tvGetc ∨ v = tvIn
  | .getc => true
  | .out => false
  | .puts => false
  | .inp => true
  | .putsp => false
  | .halt => false
  | .trapOther _ => false

/-- Whether an instruction writes to the output (R148: OUT, PUTS, PUTSP, IN). -/
def writesOutput : Instr → Bool
  | .br _ _ _ _ => false
  | .addReg _ _ _ => false
  | .addImm _ _ _ => false
  | .ld _ _ => false
  | .st _ _ => false
  | .jsr _ => false
  | .jsrr _ => false
  | .andReg _ _ _ => false
  | .andImm _ _ _ => false
  | .ldr _ _ _ => false
  | .str _ _ _ => false
  | .reserved8 _ => false
  | .not _ _ => false
  | .ldi _ _ => false
  | .sti _ _ => false
  | .jmp _ => false
  | .ret => false
  | .reserved13 _ => false
  | .lea _ _ => false
  | .trap v => v = tvOut ∨ v = tvPuts ∨ v = tvIn ∨ v = tvPutsp
  | .getc => false
  | .out => true
  | .puts => true
  | .inp => true
  | .putsp => true
  | .halt => false
  | .trapOther _ => false

/-- An event that is output: a character written or a flush (R24). -/
def IoEvent.isOutput : IoEvent → Bool
  | .writeChar _ | .flush => true
  | _ => false

/-- The word an image puts at an address (R162, R163): the origin is its first word, high byte first,
and the word at a is the one a - origin words after it, if the file holds both its bytes. -/
def imageWord (image : List Byte) (a : Word) : Option Word :=
  match image with
  | hi :: lo :: content =>
    if (hi ++ lo : Word).toNat ≤ a.toNat then
      match content[2 * (a.toNat - (hi ++ lo : Word).toNat)]?,
        content[2 * (a.toNat - (hi ++ lo : Word).toNat) + 1]? with
      | some h, some l => some (h ++ l)
      | _, _ => none
    else none
  | _ => none

/-! ## States -/

/-- A state whose next step fetches an instruction: Running, no fault (R70), no service in progress. -/
def State.Ready (s : State) : Prop := s.fault = none ∧ s.run = .running ∧ s.pending = none

/-- Two states that differ at most in what belongs to the environment. -/
def State.SameMachine (s t : State) : Prop :=
  t.regs = s.regs ∧ t.pc = s.pc ∧ t.cond = s.cond ∧ t.run = s.run ∧ t.fault = s.fault ∧
    t.mem = s.mem ∧ t.pending = s.pending

/-- The invariant of the machine. -/
structure State.Inv (s : State) : Prop where
  /-- memory is in its canonical form -/
  mem_wf : s.mem.wf
  /-- a recorded fault is of a reserved word, `pc` is just past it, and the machine is still Running
  with nothing in progress (R140) -/
  fault_frozen : ∀ r, s.fault = some r →
    (r.instr.extractLsb' 12 4 = 8#4 ∨ r.instr.extractLsb' 12 4 = 13#4) ∧ s.pc = r.addr + 1#16 ∧
      s.run = .running ∧ s.pending = none
  /-- a halted machine has R7 = pc, no fault and nothing in progress (R134) -/
  halted_clean : s.run = .halted → s.reg 7 = s.pc ∧ s.fault = none ∧ s.pending = none
  /-- a service in progress has written R7 already (R75, R120) -/
  pending_linked : s.pending ≠ none → s.reg 7 = s.pc ∧ s.run = .running
  /-- a scan in progress goes on at the address R0 holds (R126, R132) -/
  pending_scan : ∀ a, s.pending = some (.puts a) ∨ s.pending = some (.putsp a) → a = s.reg 0

end Sys2Proof.Machine
end

