-- ==== Sys2Proof/Certificates/Slice0/Obligations.lean ====
section
/-! DEFINITION. The statements for the provers: the numbered rules of spec/, as properties of the model.
An instruction's statement gives its encoding (every value of every field and of the ignored bits; the
opcode by name, the fields where R52 puts them, which is the spec's decision D2, log entry 9) and its whole
effect and frame; `pc` is the already incremented program counter in `exec` (R70). -/

open Sys2Proof Sys2Proof.Machine

/-! ## Reset and images -/

/-- R13, R15: after reset, whatever `MEM_INIT` and the images are, pc is 0x3000, the registers are zero and
the flag is Zero; and (section 8 of 10_state.md) the machine is Running. -/
def Obligations.ResetRegisters : Prop :=
  ∀ (memInit : Word → Word) (images : List (List Byte)),
    (State.resetWith memInit images).pc = 0x3000#16 ∧
    (State.resetWith memInit images).cond = .z ∧
    (∀ r, (State.resetWith memInit images).reg r = 0#16) ∧
    (State.resetWith memInit images).run = .running

/-- R162, R163: an image file is an origin word and content words, each high byte first; the words are
stored at consecutive addresses from the origin, without wrapping past 0xFFFF, and nothing else changes. -/
def Obligations.LoadImageStoresContentWords : Prop :=
  ∀ (m : Memory) (origin : Word) (content : List Word) (a : Word),
    (loadImage m ((origin :: content).flatMap
        fun w => [w.extractLsb' 8 8, w.extractLsb' 0 8])).read a =
      if origin.toNat ≤ a.toNat then (content[a.toNat - origin.toNat]?).getD (m.read a)
      else m.read a

/-- R160, R164, R18: every address holds what the last image that covers it put there, else its
`MEM_INIT`; no fault is recorded and the record is empty. `imageWord` says what an image puts where, for
any bytes; what it says of a trailing odd byte and of a file shorter than two bytes is the spec's decision
D21 (log entry 23), and the fault record and the empty output are its decisions D15 and D27. -/
def Obligations.ResetEstablishesBootState : Prop :=
  ∀ (memInit : Word → Word) (images : List (List Byte)),
    (∀ a, (State.resetWith memInit images).mem.read a =
      (images.reverse.findSome? fun image => imageWord image a).getD (memInit a)) ∧
    (State.resetWith memInit images).fault = none ∧
    (State.resetWith memInit images).record = []

/-- The invariant holds after reset with any `MEM_INIT` and images. `State.reset` is the reset with no
image and every word 0, the model's choice (log entry 2). -/
def Obligations.ResetMeetsInvariant : Prop :=
  (∀ (memInit : Word → Word) (images : List (List Byte)),
    (State.resetWith memInit images).Inv) ∧
  State.reset = State.resetWith (fun _ => 0#16) []

/-! ## Whole-machine properties -/

/-- Every step keeps the invariant, from every state that meets it. -/
def Obligations.StepKeepsInvariant : Prop :=
  ∀ s t : State, s.Inv → step s = .next t → t.Inv

/-- R52, R55, R56, with the spec's supplied numbers (D1, D2, D5; log entries 9, 10): decoding an encoded instruction gives its row: the instruction itself, but RET for
JMP with base register 7, and the vector's row for TRAP. -/
def Obligations.DecodeOfEncode : Prop :=
  ∀ i : Instr, i.WellFormed = true →
    decodeWord (encode i) = canonical i ∧
    ((∀ b, i ≠ .jmp b ∨ b ≠ 7) → (∀ v, i ≠ .trap v) → canonical i = i)

/-- R55, with the spec's supplied positions (D2; log entry 9): decoding looks at no ignored bit and drops no other: two words that agree in the bits their
instruction uses decode alike, and encoding what a word decodes to gives its used bits back. The mask is
the complement of R55's list. -/
def Obligations.DecodeReadsExactlyUsedBits : Prop :=
  ∀ w : Word,
    let used : Word :=
      match (w.extractLsb' 12 4).toNat, w.getLsbD 5, w.getLsbD 11 with
      | 1, false, _ => 0xFFE7#16
      | 5, false, _ => 0xFFE7#16
      | 9, _, _ => 0xFFC0#16
      | 12, _, _ => 0xF1C0#16
      | 4, _, false => 0xF9C0#16
      | 15, _, _ => 0xF0FF#16
      | _, _, _ => 0xFFFF#16
    encode (decodeWord w) &&& used = w &&& used ∧
    ∀ x : Word, x &&& used = w &&& used → decodeWord x = decodeWord w

/-- R58, with the spec's supplied numbering (D1, D6; log entry 9): exactly the words with opcode value 8 or 13 are of the reserved family. -/
def Obligations.ReservedWords : Prop :=
  ∀ w : Word,
    (w.extractLsb' 12 4 = 8#4 ↔ ∃ rest, decodeWord w = .reserved8 rest) ∧
    (w.extractLsb' 12 4 = 13#4 ↔ ∃ rest, decodeWord w = .reserved13 rest)

/-- Words written out from R52's formats and R56's opcode values (supplied: D1, D2, D5; log entries 9, 10)
decode to what they stand for. -/
def Obligations.DecodeSampleWords : Prop :=
  decodeWord 0b0000_001_111111101#16 = .br false false true 0b111111101#9 ∧
  decodeWord 0b0001_000_000_0_00_001#16 = .addReg 0 0 1 ∧
  decodeWord 0b0001_001_001_1_11111#16 = .addImm 1 1 0b11111#5 ∧
  decodeWord 0b0110_010_011_111111#16 = .ldr 2 3 0b111111#6 ∧
  decodeWord 0b0100_1_00000000101#16 = .jsr 5#11 ∧
  decodeWord 0b0100_0_00_010_000000#16 = .jsrr 2 ∧
  decodeWord 0b1100_000_111_000000#16 = .ret ∧
  decodeWord 0b1111_0000_00100011#16 = .inp

/-- Two spellings of one instruction mean the same: what the decoder answers for JMP R7 and for a generic
TRAP executes as they do (R92, R120). -/
def Obligations.CanonicalSpellingMeansTheSame : Prop :=
  ∀ (i : Instr) (s : State), exec (canonical i) s = exec i s

/-- R70: a step from a Running, unfaulted state (with no service in progress: the model's own condition,
log entries 7 and 8) fetches with `MemRead` at
pc, increments pc modulo 65536, and executes the decoded instruction on the state after both. -/
def Obligations.StepRunsDecodedInstruction : Prop :=
  ∀ s : State, s.Ready →
    step s = exec (decodeWord (memRead s.pc s).1) ((memRead s.pc s).2.setPc (s.pc + 1#16))

/-- R16, R21, R140: no step exists from a halted state or from one with a fault recorded. Which outcome says
so is the model's choice (log entries 17 and 20). -/
def Obligations.NoStepAtTheEnds : Prop :=
  (∀ s : State, s.fault = none → s.run = .halted → step s = .refused .halted) ∧
  ∀ (s : State) (r : FaultRecord), s.fault = some r →
    step s = .fault (.illegalOpcode r.instr r.addr)

/-- After R141: nothing else faults: every instruction, in every state, has a next state, and only the
reserved family's records a fault. That there is a next state where a GETC or IN waits (log entry 7), where
a PUTS or PUTSP meets no zero word (log entry 8), and after a reserved word (D15, log entry 17) is the
model's choice. -/
def Obligations.NothingElseFaults : Prop :=
  ∀ (i : Instr) (s : State), ∃ t, exec i s = .next t ∧
    ((∀ x, i ≠ .reserved8 x) → (∀ x, i ≠ .reserved13 x) → t.fault = s.fault)

/-- R73: the flag-updating instructions set the flags on the register they write (R0 for GETC and IN, where
a character has arrived), and no other instruction changes them. -/
def Obligations.FlagsChangeOnlyByUpdatingInstructions : Prop :=
  ∀ (i : Instr) (s t : State), exec i s = .next t →
    (updatesFlags i = false → t.cond = s.cond) ∧
    (updatesFlags i = true → (readsInput i = true → s.input ≠ []) →
      FlagOf (t.reg ((registersWritten i).headD 0)) t.cond)

/-- The table under R11: an instruction writes no general register but those the table gives it. -/
def Obligations.RegistersWrittenOnlyAsTabled : Prop :=
  ∀ (i : Instr) (s t : State) (r : Reg), exec i s = .next t → r ∉ registersWritten i →
    t.reg r = s.reg r

/-- The table under R12: only control transfers change the incremented pc. -/
def Obligations.PcChangedOnlyByControlTransfer : Prop :=
  ∀ (i : Instr) (s t : State), exec i s = .next t → transfersControl i = false → t.pc = s.pc

/-- 20_memory.md section 7: a word of memory changes only where the instruction stores, or, for KBSR and
KBDR, where one of its `MemRead`s is of `KBSR_ADDR`. -/
def Obligations.MemoryChangedOnlyByStoresAndPolls : Prop :=
  ∀ (i : Instr) (s t : State) (a : Word), exec i s = .next t →
    storeAddress i s ≠ some a →
    (kbsrAddr ∉ memReads i s ∨ (a ≠ kbsrAddr ∧ a ≠ kbdrAddr)) →
    t.mem.read a = s.mem.read a

/-- R24, R148: the record is append-only, and an event of output is added only by OUT, PUTS, PUTSP, IN,
or a service of theirs in progress. -/
def Obligations.OutputOnlyByTrapServices : Prop :=
  ∀ s t : State, step s = .next t → ∃ es, t.record = s.record ++ es ∧
    ((∃ e ∈ es, e.isOutput = true) →
      (s.pending ≠ none ∧ s.pending ≠ some .getc) ∨
      (s.pending = none ∧ writesOutput (decodeWord (memRead s.pc s).1) = true))

/-- R16, R134: a step reaches Halted only by executing a TRAP word whose vector is 0x25. -/
def Obligations.OnlyTheHaltTrapHalts : Prop :=
  ∀ s t : State, step s = .next t → t.run = .halted →
    s.pending = none ∧ (memRead s.pc s).1.extractLsb' 12 4 = 15#4 ∧
    (memRead s.pc s).1.extractLsb' 0 8 = 0x25#8

/-- R22, R23: an instruction that neither reads `KBSR_ADDR` nor takes input does the same whatever the
environment holds: two runs of it that differ only in the environment stay so. -/
def Obligations.EnvironmentDoesNotLeakIntoMachine : Prop :=
  ∀ (i : Instr) (s u s' u' : State), s.SameMachine u →
    kbsrAddr ∉ memReads i s → readsInput i = false →
    exec i s = .next s' → exec i u = .next u' → s'.SameMachine u'

/-! ## Arithmetic and flags -/

/-- R6: `sext_N` for 1 ≤ N ≤ 16: the field if its top bit is 0, else all bits from N to 15 set to 1; it
keeps the signed value. -/
def Obligations.SignExtension : Prop :=
  (∀ (n : Nat) (v : BitVec n), 1 ≤ n → n ≤ 16 →
    (v.getLsbD (n - 1) = false → sext v = v.setWidth 16) ∧
    (v.getLsbD (n - 1) = true → sext v = v.setWidth 16 ||| (0xFFFF#16 <<< n)) ∧
    (sext v).toInt = v.toInt) ∧
  sext 0x1F#5 = 0xFFFF#16 ∧ sext 0x0F#5 = 0x000F#16

/-- R72: `setcc(i)` classifies the current value of x[i] and writes COND, nothing else. -/
def Obligations.SetccClassifies : Prop :=
  ∀ (i : Reg) (s : State), FlagOf (s.reg i) (setcc i s).cond ∧
    setcc i s = { s with cond := (setcc i s).cond }

/-- R80: ADD, register form. -/
def Obligations.AddRegister : Prop :=
  (∀ (d a b : BitVec 3) (x : BitVec 2),
    decodeWord (opcAdd ++ d ++ a ++ 0#1 ++ x ++ b) = .addReg (regOf d) (regOf a) (regOf b)) ∧
  ∀ (dr sr1 sr2 : Reg) (s : State), ∃ t, exec (.addReg dr sr1 sr2) s = .next t ∧
    FlaggedResult s t dr (s.reg sr1 + s.reg sr2)

/-- R81: ADD, immediate form. -/
def Obligations.AddImmediate : Prop :=
  (∀ (d a : BitVec 3) (imm5 : BitVec 5),
    decodeWord (opcAdd ++ d ++ a ++ 1#1 ++ imm5) = .addImm (regOf d) (regOf a) imm5) ∧
  ∀ (dr sr1 : Reg) (imm5 : BitVec 5) (s : State), ∃ t, exec (.addImm dr sr1 imm5) s = .next t ∧
    FlaggedResult s t dr (s.reg sr1 + imm5.signExtend 16)

/-- R82: AND, register form. -/
def Obligations.AndRegister : Prop :=
  (∀ (d a b : BitVec 3) (x : BitVec 2),
    decodeWord (opcAnd ++ d ++ a ++ 0#1 ++ x ++ b) = .andReg (regOf d) (regOf a) (regOf b)) ∧
  ∀ (dr sr1 sr2 : Reg) (s : State), ∃ t, exec (.andReg dr sr1 sr2) s = .next t ∧
    FlaggedResult s t dr (s.reg sr1 &&& s.reg sr2)

/-- R83: AND, immediate form; the immediate is sign-extended. -/
def Obligations.AndImmediate : Prop :=
  (∀ (d a : BitVec 3) (imm5 : BitVec 5),
    decodeWord (opcAnd ++ d ++ a ++ 1#1 ++ imm5) = .andImm (regOf d) (regOf a) imm5) ∧
  ∀ (dr sr1 : Reg) (imm5 : BitVec 5) (s : State), ∃ t, exec (.andImm dr sr1 imm5) s = .next t ∧
    FlaggedResult s t dr (s.reg sr1 &&& imm5.signExtend 16)

/-- R84: NOT. -/
def Obligations.NotComplements : Prop :=
  (∀ (d a : BitVec 3) (x : BitVec 6),
    decodeWord (opcNot ++ d ++ a ++ x) = .not (regOf d) (regOf a)) ∧
  ∀ (dr sr : Reg) (s : State), ∃ t, exec (.not dr sr) s = .next t ∧
    FlaggedResult s t dr (0xFFFF#16 - s.reg sr)

/-! ## Loads, stores, addresses -/

/-- R103: LEA gives the address and its flag, with no memory access. -/
def Obligations.LeaGivesAddress : Prop :=
  (∀ (d : BitVec 3) (off9 : BitVec 9), decodeWord (opcLea ++ d ++ off9) = .lea (regOf d) off9) ∧
  ∀ (dr : Reg) (off9 : BitVec 9) (s : State), ∃ t, exec (.lea dr off9) s = .next t ∧
    FlaggedResult s t dr (s.pc + off9.signExtend 16)

/-- R100: LD. The `MemRead` may poll: the rest is as that read left it. -/
def Obligations.LdLoads : Prop :=
  (∀ (d : BitVec 3) (off9 : BitVec 9), decodeWord (opcLd ++ d ++ off9) = .ld (regOf d) off9) ∧
  ∀ (dr : Reg) (off9 : BitVec 9) (s : State),
    let r := memRead (s.pc + off9.signExtend 16) s
    s.SameRegsExcept r.2 [] ∧ r.2.pc = s.pc ∧
    ∃ t, exec (.ld dr off9) s = .next t ∧ FlaggedResult r.2 t dr r.1

/-- R101: LDI. The pointer is read first, then the datum, both through `MemRead`. -/
def Obligations.LdiLoads : Prop :=
  (∀ (d : BitVec 3) (off9 : BitVec 9), decodeWord (opcLdi ++ d ++ off9) = .ldi (regOf d) off9) ∧
  ∀ (dr : Reg) (off9 : BitVec 9) (s : State),
    let p := memRead (s.pc + off9.signExtend 16) s
    let r := memRead p.1 p.2
    s.SameRegsExcept r.2 [] ∧ r.2.pc = s.pc ∧
    ∃ t, exec (.ldi dr off9) s = .next t ∧ FlaggedResult r.2 t dr r.1

/-- R102: LDR. The base is read before DR is written. -/
def Obligations.LdrLoads : Prop :=
  (∀ (d b : BitVec 3) (off6 : BitVec 6),
    decodeWord (opcLdr ++ d ++ b ++ off6) = .ldr (regOf d) (regOf b) off6) ∧
  ∀ (dr base : Reg) (off6 : BitVec 6) (s : State),
    let r := memRead (s.reg base + off6.signExtend 16) s
    s.SameRegsExcept r.2 [] ∧ r.2.pc = s.pc ∧
    ∃ t, exec (.ldr dr base off6) s = .next t ∧ FlaggedResult r.2 t dr r.1

/-- R104: ST. -/
def Obligations.StStores : Prop :=
  (∀ (r : BitVec 3) (off9 : BitVec 9), decodeWord (opcSt ++ r ++ off9) = .st (regOf r) off9) ∧
  ∀ (sr : Reg) (off9 : BitVec 9) (s : State), ∃ t, exec (.st sr off9) s = .next t ∧
    StoredResult s t (s.pc + off9.signExtend 16) (s.reg sr)

/-- R105: STI. The pointer is read through `MemRead`, and the rest is as that read left it. -/
def Obligations.StiStores : Prop :=
  (∀ (r : BitVec 3) (off9 : BitVec 9), decodeWord (opcSti ++ r ++ off9) = .sti (regOf r) off9) ∧
  ∀ (sr : Reg) (off9 : BitVec 9) (s : State),
    let p := memRead (s.pc + off9.signExtend 16) s
    s.SameRegsExcept p.2 [] ∧ p.2.pc = s.pc ∧ p.2.cond = s.cond ∧
    ∃ t, exec (.sti sr off9) s = .next t ∧ StoredResult p.2 t p.1 (s.reg sr)

/-- R106: STR. -/
def Obligations.StrStores : Prop :=
  (∀ (r b : BitVec 3) (off6 : BitVec 6),
    decodeWord (opcStr ++ r ++ b ++ off6) = .str (regOf r) (regOf b) off6) ∧
  ∀ (sr base : Reg) (off6 : BitVec 6) (s : State), ∃ t, exec (.str sr base off6) s = .next t ∧
    StoredResult s t (s.reg base + off6.signExtend 16) (s.reg sr)

/-- R101's corner: an STI followed by an LDI through the same pointer cell loads what was stored, unless
the cell or the address it holds is `KBSR_ADDR`, or the pointer points at its own cell. -/
def Obligations.LdiReadsBackSti : Prop :=
  ∀ (sr dr : Reg) (off off' : BitVec 9) (s : State),
    s.pc + off.signExtend 16 ≠ kbsrAddr →
    s.mem.read (s.pc + off.signExtend 16) ≠ kbsrAddr →
    s.mem.read (s.pc + off.signExtend 16) ≠ s.pc + off.signExtend 16 →
    s.pc + 1#16 + off'.signExtend 16 = s.pc + off.signExtend 16 →
    ∃ t u, exec (.sti sr off) s = .next t ∧
      exec (.ldi dr off') (t.setPc (t.pc + 1#16)) = .next u ∧ u.reg dr = s.reg sr

/-! ## Control transfer -/

/-- R90: BR is taken where a requested flag bit matches the current flag. -/
def Obligations.BrBranches : Prop :=
  (∀ (n z p : Bool) (off9 : BitVec 9),
    decodeWord (opcBr ++ BitVec.ofBool n ++ BitVec.ofBool z ++ BitVec.ofBool p ++ off9) =
      .br n z p off9) ∧
  ∀ (n z p : Bool) (off9 : BitVec 9) (s : State), ∃ t, exec (.br n z p off9) s = .next t ∧
    ((n = true ∧ s.cond = .n ∨ z = true ∧ s.cond = .z ∨ p = true ∧ s.cond = .p) →
      ControlResult s t (s.pc + off9.signExtend 16) []) ∧
    (¬(n = true ∧ s.cond = .n ∨ z = true ∧ s.cond = .z ∨ p = true ∧ s.cond = .p) →
      ControlResult s t s.pc [])

/-- R60, and R59's first class: BR with n = z = p = 1 is always taken, and BR with n = z = p = 0 changes
nothing. -/
def Obligations.BrAlwaysAndNever : Prop :=
  ∀ (off9 : BitVec 9) (s : State),
    exec (.br true true true off9) s = .next (s.setPc (s.pc + off9.signExtend 16)) ∧
    exec (.br false false false off9) s = .next s

/-- R91, R92: JMP goes to the value its base register holds, and RET to that of R7; RET's words are those
of JMP with base register 7, for which the decoder answers RET's row (log entry 24). -/
def Obligations.JmpAndRetJump : Prop :=
  (∀ (x : BitVec 3) (b : BitVec 3) (y : BitVec 6),
    decodeWord (opcJmp ++ x ++ b ++ y) = if b = 7#3 then .ret else .jmp (regOf b)) ∧
  ∀ s : State,
    (∀ base : Reg, ∃ t, exec (.jmp base) s = .next t ∧ ControlResult s t (s.reg base) []) ∧
    ∃ t, exec .ret s = .next t ∧ ControlResult s t (s.reg 7) []

/-- R93: JSR saves the incremented pc in R7, with no flag change, and jumps relative to it. -/
def Obligations.JsrLinksAndJumps : Prop :=
  (∀ off11 : BitVec 11, decodeWord (opcJsr ++ 1#1 ++ off11) = .jsr off11) ∧
  ∀ (off11 : BitVec 11) (s : State), ∃ t, exec (.jsr off11) s = .next t ∧ t.reg 7 = s.pc ∧
    ControlResult s t (s.pc + off11.signExtend 16) [7]

/-- R94: JSRR writes R7 first and reads the base register afterwards, so with base register 7 it goes on
at the next instruction: the order is the spec's decision D16 (log entry 18). -/
def Obligations.JsrrLinksThenReadsBase : Prop :=
  (∀ (x : BitVec 2) (b : BitVec 3) (y : BitVec 6),
    decodeWord (opcJsr ++ 0#1 ++ x ++ b ++ y) = .jsrr (regOf b)) ∧
  ∀ (base : Reg) (s : State), ∃ t, exec (.jsrr base) s = .next t ∧ t.reg 7 = s.pc ∧
    (base ≠ 7 → ControlResult s t (s.reg base) [7]) ∧
    (base = 7 → ControlResult s t s.pc [7])

/-! ## TRAP and its services -/

/-- After R120: TRAP writes R7 with the incremented pc and performs the service of its vector, bits [11:8] of
the word ignored; for every vector pc is unchanged, and the flags are unless the service is GETC or IN.
The decoder answers the vector's own row (log entry 24), which does what TRAP does. That there is a next
state for a GETC or IN that waits (log entry 7) and for a PUTS or PUTSP over a memory with no zero word (log
entry 8) is the model's choice. -/
def Obligations.TrapLinksAndDispatches : Prop :=
  (∀ (x : BitVec 4) (v : BitVec 8), decodeWord (opcTrap ++ x ++ v) = canonical (.trap v)) ∧
  canonical (.trap tvGetc) = .getc ∧ canonical (.trap tvOut) = .out ∧
  canonical (.trap tvPuts) = .puts ∧ canonical (.trap tvIn) = .inp ∧
  canonical (.trap tvPutsp) = .putsp ∧ canonical (.trap tvHalt) = .halt ∧
  (∀ v : BitVec 8, v ≠ tvGetc → v ≠ tvOut → v ≠ tvPuts → v ≠ tvIn → v ≠ tvPutsp → v ≠ tvHalt →
    canonical (.trap v) = .trapOther v) ∧
  ∀ (v : BitVec 8) (s : State), ∃ t, exec (.trap v) s = .next t ∧
    exec (canonical (.trap v)) s = .next t ∧ t.reg 7 = s.pc ∧ s.SameRegsExcept t [0, 7] ∧
    (v ≠ tvGetc → v ≠ tvIn → t.reg 0 = s.reg 0 ∧ t.cond = s.cond ∧ t.input = s.input) ∧
    t.pc = s.pc ∧ s.SameMemory t ∧ t.fault = s.fault ∧ t.avail = s.avail ∧
    (v ≠ tvHalt → t.run = s.run)

/-- R136: a TRAP whose vector is none of the six writes R7 and does nothing more, the spec's decision D14
(log entry 16). -/
def Obligations.TrapOtherOnlyLinks : Prop :=
  ∀ (v : BitVec 8) (s : State), ∃ t, exec (.trapOther v) s = .next t ∧ OutputResult s t [] ∧
    t.pending = s.pending

/-- R122: GETC reads the next character into R0, zero-extended (the spec's decision D8, log entry 13),
sets the flags on it, and echoes nothing. -/
def Obligations.GetcReadsCharacter : Prop :=
  ∀ (s : State) (c : Byte) (rest : List Byte), s.input = c :: rest →
    ∃ t, exec .getc s = .next t ∧ InputResult s t c rest [.readChar c]

/-- R130: IN writes its prompt, reads the next character, echoes it, flushes, and ends as GETC. The
zero-extension and the place of the flush are the spec's decisions D8 and D12 (log entries 13, 30). -/
def Obligations.InPromptsReadsAndEchoes : Prop :=
  ∀ (s : State) (c : Byte) (rest : List Byte), s.input = c :: rest →
    ∃ t, exec .inp s = .next t ∧
      InputResult s t c rest
        (Config.inPrompt.map .writeChar ++ [.readChar c, .writeChar c, .flush])

/-- R22: with no character arrived GETC and IN do not complete, and while they wait nothing changes and
no instruction executes: every further step is the same state. That this is a state is the model's choice
(log entry 7). -/
def Obligations.BlockedReadWaits : Prop :=
  ∀ (i : Instr) (s : State), i = .getc ∨ i = .inp → s.input = [] → s.fault = none →
    s.run = .running →
    ∃ t, exec i s = .next t ∧ t.pending ≠ none ∧ t.reg 7 = s.pc ∧ s.SameRegsExcept t [7] ∧
      t.pc = s.pc ∧ t.cond = s.cond ∧ s.SameMemory t ∧ step t = .next t

/-- R121: a GETC or IN that waited ends as it would have, had the character been there: whatever arrives
while it waits, the step that finds it gives the state of the unblocked instruction (log entry 7: the model's form of the wait). -/
def Obligations.BlockedReadResumes : Prop :=
  ∀ (i : Instr) (s : State) (c : Byte) (rest : List Byte), i = .getc ∨ i = .inp →
    s.input = [] → s.fault = none → s.run = .running →
    ∃ t, exec i s = .next t ∧
      step { t with input := c :: rest } = exec i { s with input := c :: rest }

/-- R124: OUT writes the low byte of R0 and flushes. -/
def Obligations.OutWritesLowByte : Prop :=
  ∀ s : State, ∃ t, exec .out s = .next t ∧ t.pending = s.pending ∧
    OutputResult s t [.writeChar ((s.reg 0).extractLsb' 0 8), .flush]

/-- R126, R128: PUTS writes the low byte of each word from the address in R0 up to the first zero word,
and flushes; its reads are plain, wherever the string lies (the spec's decision D11, log entry 21). -/
def Obligations.PutsWritesString : Prop :=
  ∀ (s : State) (n : Nat), n < 65536 → s.mem.read (s.reg 0 + BitVec.ofNat 16 n) = 0#16 →
    (∀ k < n, s.mem.read (s.reg 0 + BitVec.ofNat 16 k) ≠ 0#16) →
    ∃ t, exec .puts s = .next t ∧ t.pending = none ∧
      OutputResult s t
        ((List.range n).map
          (fun k => .writeChar ((s.mem.read (s.reg 0 + BitVec.ofNat 16 k)).extractLsb' 0 8)) ++
          [.flush])

/-- R132, R128: PUTSP writes of each word the low byte, then the high byte if it is not zero; its reads are plain
(the spec's decision D11, log entry 21). -/
def Obligations.PutspWritesPackedString : Prop :=
  ∀ (s : State) (n : Nat), n < 65536 → s.mem.read (s.reg 0 + BitVec.ofNat 16 n) = 0#16 →
    (∀ k < n, s.mem.read (s.reg 0 + BitVec.ofNat 16 k) ≠ 0#16) →
    ∃ t, exec .putsp s = .next t ∧ t.pending = none ∧
      OutputResult s t
        ((List.range n).flatMap
          (fun k =>
            let w := s.mem.read (s.reg 0 + BitVec.ofNat 16 k)
            if w.toNat < 256 then [IoEvent.writeChar (w.extractLsb' 0 8)]
            else [.writeChar (w.extractLsb' 0 8), .writeChar (w.extractLsb' 8 8)]) ++
          [.flush])

/-- R129: with no zero word in memory PUTS never ends and writes characters for ever: after any number k of
further steps it is still in progress, and it has written the low bytes of k + 1 turns of 65536 words, in
cyclic order from R0, and nothing else (no flush). The spec's decision D25; the step of one turn is the
model's choice (log entry 8). -/
def Obligations.StringWithoutZeroNeverEnds : Prop :=
  ∀ (s : State) (k : Nat), s.fault = none → s.run = .running →
    (∀ a, s.mem.read a ≠ 0#16) →
    ∃ t u : State, exec .puts s = .next t ∧ Sys2Proof.core.run k t = .next u ∧
      u.pending = some (.puts (s.reg 0)) ∧ u.pc = s.pc ∧ u.cond = s.cond ∧ u.reg 7 = s.pc ∧
      s.SameRegsExcept u [7] ∧ s.SameMemory u ∧
      u.record = s.record ++ (List.range (65536 * (k + 1))).map fun j =>
        .writeChar ((s.mem.read (s.reg 0 + BitVec.ofNat 16 j)).extractLsb' 0 8)

/-- R129 for PUTSP: it never ends either, and after k further steps it has written the bytes R132 gives
of k + 1 turns of 65536 words, in cyclic order from R0, and nothing else: at least 65536 characters a turn
(D25, log entry 8). -/
def Obligations.PackedStringWithoutZeroNeverEnds : Prop :=
  ∀ (s : State) (k : Nat), s.fault = none → s.run = .running →
    (∀ a, s.mem.read a ≠ 0#16) →
    ∃ t u : State, exec .putsp s = .next t ∧ Sys2Proof.core.run k t = .next u ∧
      u.pending = some (.putsp (s.reg 0)) ∧ u.pc = s.pc ∧ u.cond = s.cond ∧ u.reg 7 = s.pc ∧
      s.SameRegsExcept u [7] ∧ s.SameMemory u ∧
      s.record.length + 65536 * (k + 1) ≤ u.record.length ∧
      u.record = s.record ++ (List.range (65536 * (k + 1))).flatMap fun j =>
        let w := s.mem.read (s.reg 0 + BitVec.ofNat 16 j)
        if w.toNat < 256 then [IoEvent.writeChar (w.extractLsb' 0 8)]
        else [.writeChar (w.extractLsb' 0 8), .writeChar (w.extractLsb' 8 8)]

/-- R134: HALT writes R7, makes the run state Halted, and changes nothing else; it writes no output (the
spec's decision D13, log entry 15). -/
def Obligations.HaltStopsTheRun : Prop :=
  ∀ s : State, ∃ t, exec .halt s = .next t ∧ t.run = .halted ∧ t.reg 7 = s.pc ∧
    s.SameRegsExcept t [7] ∧ t.pc = s.pc ∧ t.cond = s.cond ∧ s.SameMemory t ∧ s.SameIo t ∧
    t.fault = s.fault ∧ t.pending = s.pending

/-! ## The exception -/

/-- R140: fetching a word of the reserved family records `IllegalOpcode(instr, addr)` and leaves pc at
addr + 1; no register, flag or other word changes (but for the fetch's own poll, R143), the machine is
still Running, and no step follows. The record's contents and the kept state are the spec's decision D15
(log entry 17). -/
def Obligations.ReservedWordRaisesIllegalOpcode : Prop :=
  ∀ s : State, s.Ready →
    let instr := (memRead s.pc s).1
    instr.extractLsb' 12 4 = 8#4 ∨ instr.extractLsb' 12 4 = 13#4 →
    ∃ t, step s = .next t ∧ t.fault = some ⟨instr, s.pc⟩ ∧ t.pc = s.pc + 1#16 ∧
      s.SameRegsExcept t [] ∧ t.cond = s.cond ∧ t.run = .running ∧
      (memRead s.pc s).2.SameMemory t ∧ (memRead s.pc s).2.SameIo t ∧
      step t = .fault (.illegalOpcode instr s.pc)

/-- R140 for the instruction: from a state whose pc is addr + 1, both reserved rows take the exception
with the whole word and that address, and nothing else changes (D15, log entry 17). -/
def Obligations.ReservedRowsTakeTheException : Prop :=
  ∀ (rest : BitVec 12) (addr : Word) (s : State), s.pc = addr + 1#16 →
    exec (.reserved8 rest) s = .next { s with fault := some ⟨8#4 ++ rest, addr⟩ } ∧
    exec (.reserved13 rest) s = .next { s with fault := some ⟨13#4 ++ rest, addr⟩ }

/-! ## Memory access and the keyboard -/

/-- R30: a `MemRead` elsewhere than `KBSR_ADDR` (KBDR included) answers M[a] and changes nothing; at
`KBSR_ADDR` it polls first and answers what the poll left. -/
def Obligations.MemReadIsPlainButAtKbsr : Prop :=
  (∀ (a : Word) (s : State), a ≠ kbsrAddr → memRead a s = (s.mem.read a, s)) ∧
  ∀ s : State,
    memRead kbsrAddr s = ((pollKeyboard s).mem.read kbsrAddr, pollKeyboard s)

/-- R31: the poll. Input available: the character is taken and latched, zero-extended, in KBDR, and the
ready bit set; else the ready bit is cleared. Bits [14:0] of KBSR are kept or cleared as `KBSR_LOW_BITS`
says. The poll uses up one answer of `IO.Avail` and counts the call, the model's form of R23 (log entry 5).
Nothing else changes. The zero-extension and the two addresses are the spec's decisions D8 and D4 (log
entries 13, 11). -/
def Obligations.KeyboardPoll : Prop :=
  ∀ s : State,
    (pollKeyboard s).regs = s.regs ∧ (pollKeyboard s).pc = s.pc ∧
    (pollKeyboard s).cond = s.cond ∧ s.SameControl (pollKeyboard s) ∧
    (pollKeyboard s).avail = s.avail.tail ∧ (pollKeyboard s).availCalls = s.availCalls + 1 ∧
    (∀ a, a ≠ 0xFE00#16 → a ≠ 0xFE02#16 → (pollKeyboard s).mem.read a = s.mem.read a) ∧
    (s.availAnswer = true → ∃ c rest, s.input = c :: rest ∧ (pollKeyboard s).input = rest ∧
      (pollKeyboard s).record = s.record ++ [.availAnswer true, .readChar c] ∧
      (pollKeyboard s).mem.read 0xFE02#16 = 0#8 ++ c ∧
      (Config.kbsrLowBits = .preserve →
        (pollKeyboard s).mem.read 0xFE00#16 = s.mem.read 0xFE00#16 ||| 0x8000#16) ∧
      (Config.kbsrLowBits = .clear → (pollKeyboard s).mem.read 0xFE00#16 = 0x8000#16)) ∧
    (s.availAnswer = false → (pollKeyboard s).input = s.input ∧
      (pollKeyboard s).record = s.record ++ [.availAnswer false] ∧
      (pollKeyboard s).mem.read 0xFE02#16 = s.mem.read 0xFE02#16 ∧
      (Config.kbsrLowBits = .preserve →
        (pollKeyboard s).mem.read 0xFE00#16 = s.mem.read 0xFE00#16 &&& 0x7FFF#16) ∧
      (Config.kbsrLowBits = .clear → (pollKeyboard s).mem.read 0xFE00#16 = 0x0000#16))

/-- D7: where bits [14:0] of KBSR are zero the two values of `KBSR_LOW_BITS` agree: a poll leaves 0x8000
or 0x0000, by whether it found input. -/
def Obligations.PollAgreesOnClearLowBits : Prop :=
  ∀ s : State, s.mem.read 0xFE00#16 &&& 0x7FFF#16 = 0#16 →
    (pollKeyboard s).mem.read 0xFE00#16 = if s.availAnswer then 0x8000#16 else 0x0000#16

/-- R32, R37: a `MemWrite`, at a device register too, stores the word, leaves every other word, and does
nothing else. -/
def Obligations.MemWriteIsAPlainStore : Prop :=
  ∀ (a v : Word) (s : State), StoredResult s (memWrite a v s) a v

/-- R39: a store to the address about to be fetched is what executes next (that address not being
`KBSR_ADDR`, whose fetch polls). -/
def Obligations.FetchSeesPrecedingStore : Prop :=
  ∀ (v : Word) (s : State), s.Ready → s.pc ≠ 0xFE00#16 →
    step (memWrite s.pc v s) = exec (decodeWord v) ((memWrite s.pc v s).setPc (s.pc + 1#16))

/-- Two canonical memories that read alike at every address are the same data (log entry 1: how the
model lists memory). -/
def Obligations.CanonicalMemoriesAgreeIfReadsAgree : Prop :=
  ∀ m m' : Memory, m.wf → m'.wf → (∀ a, m.read a = m'.read a) → m = m'
end

