-- ==== Sys2Proof/Laws/Decode.lean ====
section
/-! SUPPORT. The fields of a word written as its format's bit string (spec/30_encoding.md R52), format by
format: what the decoder needs of each. -/

namespace Sys2Proof

/-! ## Register fields -/

@[simp] theorem regOf_regBits (r : Reg) : regOf (regBits r) = r := rfl
@[simp] theorem regBits_regOf (b : BitVec 3) : regBits (regOf b) = b := rfl

/-- Only the field 7 names R7. -/
theorem regOf_eq_seven (b : BitVec 3) : regOf b = 7 ↔ b = 7#3 :=
  ⟨fun h => by rw [← regBits_regOf b, h]; rfl, fun h => by rw [h]; rfl⟩

/-! ## Words as numbers -/

/-- A concatenation as a number. -/
theorem toNat_concat {n m : Nat} (x : BitVec n) (y : BitVec m) :
    (x ++ y).toNat = x.toNat * 2 ^ m + y.toNat := by
  rw [BitVec.toNat_append, ← Nat.shiftLeft_add_eq_or_of_lt y.isLt, Nat.shiftLeft_eq]

/-- A field as a number. -/
theorem toNat_field {w : Nat} (x : BitVec w) (s n : Nat) :
    (x.extractLsb' s n).toNat = x.toNat / 2 ^ s % 2 ^ n := by
  rw [BitVec.extractLsb'_toNat, Nat.shiftRight_eq_div_pow]

/-- A bit as a number. -/
theorem getLsbD_eq_of_toNat {w : Nat} (x : BitVec w) (i : Nat) (b : BitVec 1)
    (h : x.toNat / 2 ^ i % 2 = b.toNat) : x.getLsbD i = b.getLsbD 0 := by
  rw [BitVec.getLsbD, BitVec.getLsbD, Nat.testBit_eq_decide_div_mod_eq,
    Nat.testBit_eq_decide_div_mod_eq, h]
  have := b.isLt
  simp [Nat.mod_eq_of_lt this]

/-- A register field as a number. -/
theorem regField_eq {x : Word} {s : Nat} {b : BitVec 3} (h : x.toNat / 2 ^ s % 2 ^ 3 = b.toNat) :
    regOf (x.extractLsb' s 3) = regOf b :=
  congrArg regOf (BitVec.eq_of_toNat_eq ((toNat_field x s 3).trans h))

/-- A plain field as a number. -/
theorem field_eq {x : Word} {s n : Nat} {b : BitVec n} (h : x.toNat / 2 ^ s % 2 ^ n = b.toNat) :
    x.extractLsb' s n = b :=
  BitVec.eq_of_toNat_eq ((toNat_field x s n).trans h)

/-! ## The formats -/

section
variable (o : BitVec 4) (d a b : BitVec 3)

/-- Format AR. -/
theorem fields_ar (f : BitVec 1) (x : BitVec 2) :
    fieldOpcode (o ++ d ++ a ++ f ++ x ++ b) = o ∧
    fieldDr (o ++ d ++ a ++ f ++ x ++ b) = regOf d ∧
    fieldSr1 (o ++ d ++ a ++ f ++ x ++ b) = regOf a ∧
    (o ++ d ++ a ++ f ++ x ++ b : Word).getLsbD 5 = f.getLsbD 0 ∧
    fieldSr2 (o ++ d ++ a ++ f ++ x ++ b) = regOf b := by
  have := o.isLt; have := d.isLt; have := a.isLt; have := f.isLt; have := x.isLt; have := b.isLt
  refine ⟨field_eq ?_, regField_eq ?_, regField_eq ?_, getLsbD_eq_of_toNat _ _ _ ?_,
    regField_eq ?_⟩ <;>
    (rw [toNat_concat, toNat_concat, toNat_concat, toNat_concat, toNat_concat]; omega)

/-- Format AI. -/
theorem fields_ai (f : BitVec 1) (i : BitVec 5) :
    fieldOpcode (o ++ d ++ a ++ f ++ i) = o ∧ fieldDr (o ++ d ++ a ++ f ++ i) = regOf d ∧
    fieldSr1 (o ++ d ++ a ++ f ++ i) = regOf a ∧
    (o ++ d ++ a ++ f ++ i : Word).getLsbD 5 = f.getLsbD 0 ∧
    fieldImm5 (o ++ d ++ a ++ f ++ i) = i := by
  have := o.isLt; have := d.isLt; have := a.isLt; have := f.isLt; have := i.isLt
  refine ⟨field_eq ?_, regField_eq ?_, regField_eq ?_, getLsbD_eq_of_toNat _ _ _ ?_, field_eq ?_⟩ <;>
    (rw [toNat_concat, toNat_concat, toNat_concat, toNat_concat]; omega)

/-- Formats N and BO6. -/
theorem fields_bo6 (i : BitVec 6) :
    fieldOpcode (o ++ d ++ a ++ i) = o ∧ fieldDr (o ++ d ++ a ++ i) = regOf d ∧
    fieldSr1 (o ++ d ++ a ++ i) = regOf a ∧ fieldOff6 (o ++ d ++ a ++ i) = i := by
  have := o.isLt; have := d.isLt; have := a.isLt; have := i.isLt
  refine ⟨field_eq ?_, regField_eq ?_, regField_eq ?_, field_eq ?_⟩ <;>
    (rw [toNat_concat, toNat_concat, toNat_concat]; omega)

/-- Format PC9. -/
theorem fields_pc9 (i : BitVec 9) :
    fieldOpcode (o ++ d ++ i) = o ∧ fieldDr (o ++ d ++ i) = regOf d ∧
    fieldOff9 (o ++ d ++ i) = i := by
  have := o.isLt; have := d.isLt; have := i.isLt
  refine ⟨field_eq ?_, regField_eq ?_, field_eq ?_⟩ <;>
    (rw [toNat_concat, toNat_concat]; omega)

/-- Format BR. -/
theorem fields_br (n z p : BitVec 1) (i : BitVec 9) :
    fieldOpcode (o ++ n ++ z ++ p ++ i) = o ∧
    (o ++ n ++ z ++ p ++ i : Word).getLsbD 11 = n.getLsbD 0 ∧
    (o ++ n ++ z ++ p ++ i : Word).getLsbD 10 = z.getLsbD 0 ∧
    (o ++ n ++ z ++ p ++ i : Word).getLsbD 9 = p.getLsbD 0 ∧
    fieldOff9 (o ++ n ++ z ++ p ++ i) = i := by
  have := o.isLt; have := n.isLt; have := z.isLt; have := p.isLt; have := i.isLt
  refine ⟨field_eq ?_, getLsbD_eq_of_toNat _ _ _ ?_, getLsbD_eq_of_toNat _ _ _ ?_,
    getLsbD_eq_of_toNat _ _ _ ?_, field_eq ?_⟩ <;>
    (rw [toNat_concat, toNat_concat, toNat_concat, toNat_concat]; omega)

/-- Format J11. -/
theorem fields_j11 (f : BitVec 1) (i : BitVec 11) :
    fieldOpcode (o ++ f ++ i) = o ∧ (o ++ f ++ i : Word).getLsbD 11 = f.getLsbD 0 ∧
    fieldOff11 (o ++ f ++ i) = i := by
  have := o.isLt; have := f.isLt; have := i.isLt
  refine ⟨field_eq ?_, getLsbD_eq_of_toNat _ _ _ ?_, field_eq ?_⟩ <;>
    (rw [toNat_concat, toNat_concat]; omega)

/-- Format JR. -/
theorem fields_jr (f : BitVec 1) (x : BitVec 2) (y : BitVec 6) :
    fieldOpcode (o ++ f ++ x ++ b ++ y) = o ∧
    (o ++ f ++ x ++ b ++ y : Word).getLsbD 11 = f.getLsbD 0 ∧
    fieldSr1 (o ++ f ++ x ++ b ++ y) = regOf b := by
  have := o.isLt; have := f.isLt; have := x.isLt; have := b.isLt; have := y.isLt
  refine ⟨field_eq ?_, getLsbD_eq_of_toNat _ _ _ ?_, regField_eq ?_⟩ <;>
    (rw [toNat_concat, toNat_concat, toNat_concat, toNat_concat]; omega)

/-- Format T8. -/
theorem fields_t8 (x : BitVec 4) (v : BitVec 8) :
    fieldOpcode (o ++ x ++ v) = o ∧ fieldVect (o ++ x ++ v) = v := by
  have := o.isLt; have := x.isLt; have := v.isLt
  refine ⟨field_eq ?_, field_eq ?_⟩ <;>
    (rw [toNat_concat, toNat_concat]; omega)

/-- The reserved family: the opcode and the 12 other bits. -/
theorem fields_rest (r : BitVec 12) :
    fieldOpcode (o ++ r) = o ∧ fieldRest (o ++ r) = r := by
  have := o.isLt; have := r.isLt
  refine ⟨field_eq ?_, field_eq ?_⟩ <;>
    (rw [toNat_concat]; omega)

end

/-! ## The decoder by opcode (R56) -/

section
variable (w : Word)

theorem decodeWord_br (h : fieldOpcode w = opcBr) :
    decodeWord w =
      .br (w.getLsbD 11) (w.getLsbD 10) (w.getLsbD 9) (fieldOff9 w) := by
  unfold decodeWord; rw [h]; rfl

theorem decodeWord_add (h : fieldOpcode w = opcAdd) :
    decodeWord w =
      if w.getLsbD 5 then .addImm (fieldDr w) (fieldSr1 w) (fieldImm5 w)
      else .addReg (fieldDr w) (fieldSr1 w) (fieldSr2 w) := by
  unfold decodeWord; rw [h]; rfl

theorem decodeWord_ld (h : fieldOpcode w = opcLd) :
    decodeWord w =
      .ld (fieldDr w) (fieldOff9 w) := by
  unfold decodeWord; rw [h]; rfl

theorem decodeWord_st (h : fieldOpcode w = opcSt) :
    decodeWord w =
      .st (fieldDr w) (fieldOff9 w) := by
  unfold decodeWord; rw [h]; rfl

theorem decodeWord_jsr (h : fieldOpcode w = opcJsr) :
    decodeWord w =
      if w.getLsbD 11 then .jsr (fieldOff11 w) else .jsrr (fieldSr1 w) := by
  unfold decodeWord; rw [h]; rfl

theorem decodeWord_and (h : fieldOpcode w = opcAnd) :
    decodeWord w =
      if w.getLsbD 5 then .andImm (fieldDr w) (fieldSr1 w) (fieldImm5 w)
      else .andReg (fieldDr w) (fieldSr1 w) (fieldSr2 w) := by
  unfold decodeWord; rw [h]; rfl

theorem decodeWord_ldr (h : fieldOpcode w = opcLdr) :
    decodeWord w =
      .ldr (fieldDr w) (fieldSr1 w) (fieldOff6 w) := by
  unfold decodeWord; rw [h]; rfl

theorem decodeWord_str (h : fieldOpcode w = opcStr) :
    decodeWord w =
      .str (fieldDr w) (fieldSr1 w) (fieldOff6 w) := by
  unfold decodeWord; rw [h]; rfl

theorem decodeWord_not (h : fieldOpcode w = opcNot) :
    decodeWord w =
      .not (fieldDr w) (fieldSr1 w) := by
  unfold decodeWord; rw [h]; rfl

theorem decodeWord_ldi (h : fieldOpcode w = opcLdi) :
    decodeWord w =
      .ldi (fieldDr w) (fieldOff9 w) := by
  unfold decodeWord; rw [h]; rfl

theorem decodeWord_sti (h : fieldOpcode w = opcSti) :
    decodeWord w =
      .sti (fieldDr w) (fieldOff9 w) := by
  unfold decodeWord; rw [h]; rfl

theorem decodeWord_jmp (h : fieldOpcode w = opcJmp) :
    decodeWord w =
      if fieldSr1 w = 7 then .ret else .jmp (fieldSr1 w) := by
  unfold decodeWord; rw [h]; rfl

theorem decodeWord_lea (h : fieldOpcode w = opcLea) :
    decodeWord w =
      .lea (fieldDr w) (fieldOff9 w) := by
  unfold decodeWord; rw [h]; rfl

theorem decodeWord_trap (h : fieldOpcode w = opcTrap) :
    decodeWord w =
      decodeTrap (fieldVect w) := by
  unfold decodeWord; rw [h]; rfl

theorem decodeWord_reserved8 (h : fieldOpcode w = opcReserved8) :
    decodeWord w =
      .reserved8 (fieldRest w) := by
  unfold decodeWord; rw [h]; rfl

theorem decodeWord_reserved13 (h : fieldOpcode w = opcReserved13) :
    decodeWord w =
      .reserved13 (fieldRest w) := by
  unfold decodeWord; rw [h]; rfl

end

/-- A word is its opcode and the 12 bits below it. -/
theorem opcode_append_rest (w : Word) : fieldOpcode w ++ fieldRest w = w := by
  apply BitVec.eq_of_toNat_eq
  have h : (fieldOpcode w ++ fieldRest w : Word).toNat = _ :=
    toNat_concat (fieldOpcode w) (fieldRest w)
  rw [h, fieldOpcode, fieldRest, toNat_field, toNat_field]
  have := w.isLt
  omega

@[simp] theorem canonical_jmp (base : Reg) :
    canonical (.jmp base) = if base = 7 then .ret else .jmp base := rfl
@[simp] theorem canonical_trap (vect : BitVec 8) : canonical (.trap vect) = decodeTrap vect := rfl

/-- The trap row of a vector by name (R57, R136). -/
theorem decodeTrap_of_not_service {v : BitVec 8} (h : v ∉ serviceVectors) :
    decodeTrap v = .trapOther v := by
  simp only [serviceVectors, List.mem_cons, List.not_mem_nil, or_false, not_or] at h
  simp [decodeTrap, h]

end Sys2Proof
end

