-- ==== Sys2Proof/Laws/Memory.lean ====
section
/-! SUPPORT. The laws of memory: read after write, the canonical form kept by every operation, equal reads
make equal memories, and what loading images and `Memory.ofFunction` put where. -/

namespace Sys2Proof.Machine

/-! ## Read after write -/

/-- An address no cell has reads as unlisted. -/
theorem findCell_eq_unlisted {m : List Cell} {a : Nat} (h : ∀ c ∈ m, c.1 ≠ a) :
    findCell m a = unlisted := by
  induction m with
  | nil => rfl
  | cons d rest ih =>
    obtain ⟨k, v⟩ := d
    have hk : k ≠ a := h (k, v) (by simp)
    simp [findCell, hk, ih fun c hc => h c (by simp [hc])]

/-- Dropping the cells of one address leaves every other address. -/
theorem findCell_filter_ne (m : List Cell) {a b : Nat} (h : b ≠ a) :
    findCell (m.filter fun c => c.1 != a) b = findCell m b := by
  induction m with
  | nil => rfl
  | cons d rest ih =>
    obtain ⟨k, v⟩ := d
    by_cases hk : k = a
    · have : k ≠ b := fun e => h (e ▸ hk)
      simp [findCell, hk, ih, hk ▸ this]
    · simp [findCell, hk, ih]

/-- Dropping the cells of an address leaves none of that address. -/
theorem filter_ne_ne (m : List Cell) (a : Nat) : ∀ c ∈ m.filter (fun c => c.1 != a), c.1 ≠ a := by
  simp

/-- Inserting a cell of a fresh address gives that address its value. -/
theorem findCell_insertCell_self (m : List Cell) (c : Cell) (h : ∀ d ∈ m, d.1 ≠ c.1) :
    findCell (insertCell c m) c.1 = c.2 := by
  induction m with
  | nil => simp [insertCell, findCell]
  | cons d rest ih =>
    have hd : d.1 ≠ c.1 := h d (by simp)
    unfold insertCell
    split
    · simp [findCell]
    · simp [findCell, hd, ih fun e he => h e (by simp [he])]

/-- Inserting a cell leaves every other address. -/
theorem findCell_insertCell_ne (m : List Cell) (c : Cell) {b : Nat} (h : b ≠ c.1) :
    findCell (insertCell c m) b = findCell m b := by
  induction m with
  | nil => simp [insertCell, findCell, h.symm]
  | cons d rest ih =>
    unfold insertCell
    split
    · simp [findCell, h.symm]
    · simp [findCell, ih]

/-- The one law of memory (R32, R37): a write is read back, and it leaves every other address. It needs
no canonical form. -/
theorem Memory.read_write (m : Memory) (a b v : Word) :
    (m.write a v).read b = if b = a then v else m.read b := by
  by_cases hab : b = a
  · subst hab
    unfold Memory.write Memory.read
    split
    · rename_i hv
      simp [findCell_eq_unlisted (filter_ne_ne m b.toNat), hv]
    · simpa using findCell_insertCell_self _ (b.toNat, v) (filter_ne_ne m b.toNat)
  · have hne : b.toNat ≠ a.toNat := fun e => hab (BitVec.eq_of_toNat_eq e)
    unfold Memory.write Memory.read
    split
    · simp [findCell_filter_ne m hne]
    · rw [findCell_insertCell_ne _ (a.toNat, v) hne]
      simp [findCell_filter_ne m hne]

@[simp] theorem Memory.read_write_self (m : Memory) (a v : Word) : (m.write a v).read a = v := by
  simp [Memory.read_write]

theorem Memory.read_write_ne (m : Memory) {a b : Word} (v : Word) (h : b ≠ a) :
    (m.write a v).read b = m.read b := by
  simp [Memory.read_write, h]

/-! ## The canonical form -/

theorem mem_insertCell {c d : Cell} {m : List Cell} : d ∈ insertCell c m ↔ d = c ∨ d ∈ m := by
  induction m with
  | nil => simp [insertCell]
  | cons e rest ih =>
    unfold insertCell
    split
    · simp
    · simp [ih]; tauto

theorem insertCell_pairwise {c : Cell} {m : List Cell} (hm : m.Pairwise fun c d => c.1 < d.1)
    (hc : ∀ d ∈ m, d.1 ≠ c.1) : (insertCell c m).Pairwise fun c d => c.1 < d.1 := by
  induction m with
  | nil => simp [insertCell]
  | cons d rest ih =>
    obtain ⟨hd, hrest⟩ := List.pairwise_cons.mp hm
    unfold insertCell
    split
    · rename_i hlt
      refine List.pairwise_cons.mpr ⟨fun e he => ?_, hm⟩
      rcases List.mem_cons.mp he with rfl | he
      · exact hlt
      · exact lt_trans hlt (hd e he)
    · rename_i hge
      refine List.pairwise_cons.mpr ⟨fun e he => ?_, ih hrest fun e he => hc e (by simp [he])⟩
      rcases mem_insertCell.mp he with rfl | he
      · have := hc d (by simp)
        omega
      · exact hd e he

/-- Memory with nothing listed is canonical. -/
@[simp] theorem Memory.wf_nil : Memory.wf [] := by simp [Memory.wf]

/-- A write keeps the canonical form. -/
theorem Memory.wf_write {m : Memory} (h : m.wf) (a v : Word) : (m.write a v).wf := by
  have hf : Memory.wf (m.filter fun c => c.1 != a.toNat) :=
    ⟨h.1.filter _, fun c hc => h.2 c (List.mem_of_mem_filter hc)⟩
  unfold Memory.write
  split
  · exact hf
  · rename_i hv
    refine ⟨insertCell_pairwise hf.1 (filter_ne_ne m a.toNat), fun c hc => ?_⟩
    rcases mem_insertCell.mp hc with rfl | hc
    · exact ⟨a.isLt, hv⟩
    · exact hf.2 c hc

/-- In a rising list, the cell at hand is the one found. -/
theorem findCell_of_mem {m : List Cell} (hm : m.Pairwise fun c d => c.1 < d.1) {c : Cell}
    (hc : c ∈ m) : findCell m c.1 = c.2 := by
  induction m with
  | nil => cases hc
  | cons d rest ih =>
    obtain ⟨hd, hrest⟩ := List.pairwise_cons.mp hm
    rcases List.mem_cons.mp hc with rfl | hc
    · simp [findCell]
    · have : d.1 ≠ c.1 := Nat.ne_of_lt (hd c hc)
      simp [findCell, this, ih hrest hc]

/-- A listed cell of a canonical memory is what a read of its address answers. -/
theorem Memory.read_of_mem {m : Memory} (hm : m.wf) {c : Cell} (hc : c ∈ m) :
    m.read (BitVec.ofNat 16 c.1) = c.2 := by
  have hlt : c.1 < 2 ^ 16 := (hm.2 c hc).1
  rw [Memory.read, BitVec.toNat_ofNat, Nat.mod_eq_of_lt hlt]
  exact findCell_of_mem hm.1 hc

/-- An address that does not read as unlisted is listed. -/
theorem mem_of_findCell_ne {m : List Cell} {a : Nat} (h : findCell m a ≠ unlisted) :
    (a, findCell m a) ∈ m := by
  induction m with
  | nil => exact absurd rfl h
  | cons d rest ih =>
    obtain ⟨k, v⟩ := d
    by_cases hk : k = a
    · simp [findCell, hk]
    · simp only [findCell, hk, if_false] at h ⊢
      exact List.mem_cons_of_mem _ (ih h)

/-! ## Loading (R160 to R164) -/

@[simp] theorem loadImages_nil (m : Memory) : loadImages m [] = m := rfl
@[simp] theorem loadImages_cons (m : Memory) (image : List Byte) (rest : List (List Byte)) :
    loadImages m (image :: rest) = loadImages (loadImage m image) rest := rfl
@[simp] theorem State.resetWith_mem (memInit : Word → Word) (images : List (List Byte)) :
    (State.resetWith memInit images).mem = loadImages (Memory.ofFunction memInit) images := rfl

/-- Loading content words keeps the canonical form. -/
theorem loadWords_wf : ∀ (content : List Byte) {m : Memory} (_ : m.wf) (addr : Nat),
    (loadWords m addr content).wf
  | [], m, h, addr => by simpa [loadWords] using h
  | [_], m, h, addr => by simpa [loadWords] using h
  | hi :: lo :: rest, m, h, addr => by
    unfold loadWords
    split
    · exact loadWords_wf rest (Memory.wf_write h _ _) (addr + 1)
    · exact h

theorem loadImage_wf {m : Memory} (h : m.wf) (image : List Byte) : (loadImage m image).wf := by
  unfold loadImage
  split
  · exact loadWords_wf _ h _
  · exact h

theorem loadImages_wf {m : Memory} (h : m.wf) (images : List (List Byte)) :
    (loadImages m images).wf := by
  induction images generalizing m with
  | nil => exact h
  | cons image rest ih => exact ih (loadImage_wf h image)

/-- `MEM_INIT` as data is canonical. -/
theorem Memory.ofFunction_wf (f : Word → Word) : (Memory.ofFunction f).wf := by
  constructor
  · refine List.Pairwise.filterMap _ ?_ List.pairwise_lt_range
    intro a b hab c hc d hd
    grind
  · intro c hc
    simp only [Memory.ofFunction, List.mem_filterMap, List.mem_range] at hc
    obtain ⟨a, ha, hc⟩ := hc
    grind

/-- `MEM_INIT` as data reads as it (R18). -/
theorem Memory.read_ofFunction (f : Word → Word) (a : Word) :
    (Memory.ofFunction f).read a = f a := by
  by_cases h : f a = unlisted
  · rw [h]
    refine findCell_eq_unlisted fun c hc e => ?_
    simp only [Memory.ofFunction, List.mem_filterMap, List.mem_range] at hc
    obtain ⟨k, hk, hc⟩ := hc
    have hka : f (BitVec.ofNat 16 k) ≠ unlisted ∧ k = c.1 := by grind
    rw [hka.2, e] at hka
    simp [h] at hka
  · refine findCell_of_mem (c := (a.toNat, f a)) (Memory.ofFunction_wf f).1 ?_
    unfold Memory.ofFunction
    refine List.mem_filterMap.mpr ⟨a.toNat, List.mem_range.mpr a.isLt, ?_⟩
    rw [BitVec.ofNat_toNat, BitVec.setWidth_eq, if_neg h]

/-- What loading content words from addr leaves at an address: the word whose two bytes the content holds
for it, else what was there (R163). -/
theorem loadWords_read : ∀ (content : List Byte) (m : Memory) (addr : Nat) (a : Word),
    (loadWords m addr content).read a =
      (if addr ≤ a.toNat then
        match content[2 * (a.toNat - addr)]?, content[2 * (a.toNat - addr) + 1]? with
        | some h, some l => some (wordOfBytes h l)
        | _, _ => none
      else none).getD (m.read a)
  | [], m, addr, a => by simp [loadWords]
  | [x], m, addr, a => by
    simp only [loadWords]
    split
    · simp
    · rfl
  | hi :: lo :: rest, m, addr, a => by
    rw [loadWords]
    split
    · rw [loadWords_read rest, Memory.read_write]
      by_cases h1 : addr + 1 ≤ a.toNat
      · have e : a.toNat - addr = (a.toNat - (addr + 1)) + 1 := by omega
        have hne : a ≠ BitVec.ofNat 16 addr := by
          rintro rfl
          rw [BitVec.toNat_ofNat] at h1
          omega
        simp only [h1, show addr ≤ a.toNat by omega, if_true, e, Nat.mul_add, mul_one, hne,
          if_false]
        rfl
      · by_cases h2 : addr = a.toNat
        · subst h2
          simp
        · have hne : a ≠ BitVec.ofNat 16 addr := by
            rintro rfl
            rw [BitVec.toNat_ofNat] at h2
            omega
          simp [h1, show ¬ addr ≤ a.toNat by omega, hne]
    · have := a.isLt
      simp [show ¬ addr ≤ a.toNat by omega]

end Sys2Proof.Machine
end

