-- ==== Sys2Proof/Laws/State.lean ====
section
/-! SUPPORT. One lemma per field per update of the state, each true by rfl, so that no later proof unfolds
a record update; and reading a register after each update. -/

namespace Sys2Proof.Machine

variable (s : State)


@[simp] theorem State.setReg_regs (i : Reg) (v : Word) : (s.setReg i v).regs = s.regs.set i v := rfl
@[simp] theorem State.setReg_pc (i : Reg) (v : Word) : (s.setReg i v).pc = s.pc := rfl
@[simp] theorem State.setReg_cond (i : Reg) (v : Word) : (s.setReg i v).cond = s.cond := rfl
@[simp] theorem State.setReg_run (i : Reg) (v : Word) : (s.setReg i v).run = s.run := rfl
@[simp] theorem State.setReg_fault (i : Reg) (v : Word) : (s.setReg i v).fault = s.fault := rfl
@[simp] theorem State.setReg_mem (i : Reg) (v : Word) : (s.setReg i v).mem = s.mem := rfl
@[simp] theorem State.setReg_input (i : Reg) (v : Word) : (s.setReg i v).input = s.input := rfl
@[simp] theorem State.setReg_avail (i : Reg) (v : Word) : (s.setReg i v).avail = s.avail := rfl
@[simp] theorem State.setReg_availCalls (i : Reg) (v : Word) : (s.setReg i v).availCalls = s.availCalls := rfl
@[simp] theorem State.setReg_record (i : Reg) (v : Word) : (s.setReg i v).record = s.record := rfl
@[simp] theorem State.setReg_pending (i : Reg) (v : Word) : (s.setReg i v).pending = s.pending := rfl

@[simp] theorem State.setPc_regs (v : Word) : (s.setPc v).regs = s.regs := rfl
@[simp] theorem State.setPc_pc (v : Word) : (s.setPc v).pc = v := rfl
@[simp] theorem State.setPc_cond (v : Word) : (s.setPc v).cond = s.cond := rfl
@[simp] theorem State.setPc_run (v : Word) : (s.setPc v).run = s.run := rfl
@[simp] theorem State.setPc_fault (v : Word) : (s.setPc v).fault = s.fault := rfl
@[simp] theorem State.setPc_mem (v : Word) : (s.setPc v).mem = s.mem := rfl
@[simp] theorem State.setPc_input (v : Word) : (s.setPc v).input = s.input := rfl
@[simp] theorem State.setPc_avail (v : Word) : (s.setPc v).avail = s.avail := rfl
@[simp] theorem State.setPc_availCalls (v : Word) : (s.setPc v).availCalls = s.availCalls := rfl
@[simp] theorem State.setPc_record (v : Word) : (s.setPc v).record = s.record := rfl
@[simp] theorem State.setPc_pending (v : Word) : (s.setPc v).pending = s.pending := rfl
@[simp] theorem State.setPc_reg (v : Word) (r : Reg) : (s.setPc v).reg r = s.reg r := rfl

@[simp] theorem State.setCond_regs (c : Cond) : (s.setCond c).regs = s.regs := rfl
@[simp] theorem State.setCond_pc (c : Cond) : (s.setCond c).pc = s.pc := rfl
@[simp] theorem State.setCond_cond (c : Cond) : (s.setCond c).cond = c := rfl
@[simp] theorem State.setCond_run (c : Cond) : (s.setCond c).run = s.run := rfl
@[simp] theorem State.setCond_fault (c : Cond) : (s.setCond c).fault = s.fault := rfl
@[simp] theorem State.setCond_mem (c : Cond) : (s.setCond c).mem = s.mem := rfl
@[simp] theorem State.setCond_input (c : Cond) : (s.setCond c).input = s.input := rfl
@[simp] theorem State.setCond_avail (c : Cond) : (s.setCond c).avail = s.avail := rfl
@[simp] theorem State.setCond_availCalls (c : Cond) : (s.setCond c).availCalls = s.availCalls := rfl
@[simp] theorem State.setCond_record (c : Cond) : (s.setCond c).record = s.record := rfl
@[simp] theorem State.setCond_pending (c : Cond) : (s.setCond c).pending = s.pending := rfl
@[simp] theorem State.setCond_reg (c : Cond) (r : Reg) : (s.setCond c).reg r = s.reg r := rfl

@[simp] theorem State.setRun_regs (x : Run) : (s.setRun x).regs = s.regs := rfl
@[simp] theorem State.setRun_pc (x : Run) : (s.setRun x).pc = s.pc := rfl
@[simp] theorem State.setRun_cond (x : Run) : (s.setRun x).cond = s.cond := rfl
@[simp] theorem State.setRun_run (x : Run) : (s.setRun x).run = x := rfl
@[simp] theorem State.setRun_fault (x : Run) : (s.setRun x).fault = s.fault := rfl
@[simp] theorem State.setRun_mem (x : Run) : (s.setRun x).mem = s.mem := rfl
@[simp] theorem State.setRun_input (x : Run) : (s.setRun x).input = s.input := rfl
@[simp] theorem State.setRun_avail (x : Run) : (s.setRun x).avail = s.avail := rfl
@[simp] theorem State.setRun_availCalls (x : Run) : (s.setRun x).availCalls = s.availCalls := rfl
@[simp] theorem State.setRun_record (x : Run) : (s.setRun x).record = s.record := rfl
@[simp] theorem State.setRun_pending (x : Run) : (s.setRun x).pending = s.pending := rfl
@[simp] theorem State.setRun_reg (x : Run) (r : Reg) : (s.setRun x).reg r = s.reg r := rfl

@[simp] theorem State.setPending_regs (p : Option Service) : (s.setPending p).regs = s.regs := rfl
@[simp] theorem State.setPending_pc (p : Option Service) : (s.setPending p).pc = s.pc := rfl
@[simp] theorem State.setPending_cond (p : Option Service) : (s.setPending p).cond = s.cond := rfl
@[simp] theorem State.setPending_run (p : Option Service) : (s.setPending p).run = s.run := rfl
@[simp] theorem State.setPending_fault (p : Option Service) : (s.setPending p).fault = s.fault := rfl
@[simp] theorem State.setPending_mem (p : Option Service) : (s.setPending p).mem = s.mem := rfl
@[simp] theorem State.setPending_input (p : Option Service) : (s.setPending p).input = s.input := rfl
@[simp] theorem State.setPending_avail (p : Option Service) : (s.setPending p).avail = s.avail := rfl
@[simp] theorem State.setPending_availCalls (p : Option Service) : (s.setPending p).availCalls = s.availCalls := rfl
@[simp] theorem State.setPending_record (p : Option Service) : (s.setPending p).record = s.record := rfl
@[simp] theorem State.setPending_pending (p : Option Service) : (s.setPending p).pending = p := rfl
@[simp] theorem State.setPending_reg (p : Option Service) (r : Reg) : (s.setPending p).reg r = s.reg r := rfl

@[simp] theorem State.poke_regs (a v : Word) : (s.poke a v).regs = s.regs := rfl
@[simp] theorem State.poke_pc (a v : Word) : (s.poke a v).pc = s.pc := rfl
@[simp] theorem State.poke_cond (a v : Word) : (s.poke a v).cond = s.cond := rfl
@[simp] theorem State.poke_run (a v : Word) : (s.poke a v).run = s.run := rfl
@[simp] theorem State.poke_fault (a v : Word) : (s.poke a v).fault = s.fault := rfl
@[simp] theorem State.poke_mem (a v : Word) : (s.poke a v).mem = s.mem.write a v := rfl
@[simp] theorem State.poke_input (a v : Word) : (s.poke a v).input = s.input := rfl
@[simp] theorem State.poke_avail (a v : Word) : (s.poke a v).avail = s.avail := rfl
@[simp] theorem State.poke_availCalls (a v : Word) : (s.poke a v).availCalls = s.availCalls := rfl
@[simp] theorem State.poke_record (a v : Word) : (s.poke a v).record = s.record := rfl
@[simp] theorem State.poke_pending (a v : Word) : (s.poke a v).pending = s.pending := rfl
@[simp] theorem State.poke_reg (a v : Word) (r : Reg) : (s.poke a v).reg r = s.reg r := rfl

@[simp] theorem State.log_regs (es : List IoEvent) : (s.log es).regs = s.regs := rfl
@[simp] theorem State.log_pc (es : List IoEvent) : (s.log es).pc = s.pc := rfl
@[simp] theorem State.log_cond (es : List IoEvent) : (s.log es).cond = s.cond := rfl
@[simp] theorem State.log_run (es : List IoEvent) : (s.log es).run = s.run := rfl
@[simp] theorem State.log_fault (es : List IoEvent) : (s.log es).fault = s.fault := rfl
@[simp] theorem State.log_mem (es : List IoEvent) : (s.log es).mem = s.mem := rfl
@[simp] theorem State.log_input (es : List IoEvent) : (s.log es).input = s.input := rfl
@[simp] theorem State.log_avail (es : List IoEvent) : (s.log es).avail = s.avail := rfl
@[simp] theorem State.log_availCalls (es : List IoEvent) : (s.log es).availCalls = s.availCalls := rfl
@[simp] theorem State.log_record (es : List IoEvent) : (s.log es).record = s.record ++ es := rfl
@[simp] theorem State.log_pending (es : List IoEvent) : (s.log es).pending = s.pending := rfl
@[simp] theorem State.log_reg (es : List IoEvent) (r : Reg) : (s.log es).reg r = s.reg r := rfl

@[simp] theorem State.takeChar_regs (c : Byte) (rest : List Byte) : (s.takeChar c rest).regs = s.regs := rfl
@[simp] theorem State.takeChar_pc (c : Byte) (rest : List Byte) : (s.takeChar c rest).pc = s.pc := rfl
@[simp] theorem State.takeChar_cond (c : Byte) (rest : List Byte) : (s.takeChar c rest).cond = s.cond := rfl
@[simp] theorem State.takeChar_run (c : Byte) (rest : List Byte) : (s.takeChar c rest).run = s.run := rfl
@[simp] theorem State.takeChar_fault (c : Byte) (rest : List Byte) : (s.takeChar c rest).fault = s.fault := rfl
@[simp] theorem State.takeChar_mem (c : Byte) (rest : List Byte) : (s.takeChar c rest).mem = s.mem := rfl
@[simp] theorem State.takeChar_input (c : Byte) (rest : List Byte) : (s.takeChar c rest).input = rest := rfl
@[simp] theorem State.takeChar_avail (c : Byte) (rest : List Byte) : (s.takeChar c rest).avail = s.avail := rfl
@[simp] theorem State.takeChar_availCalls (c : Byte) (rest : List Byte) : (s.takeChar c rest).availCalls = s.availCalls := rfl
@[simp] theorem State.takeChar_record (c : Byte) (rest : List Byte) : (s.takeChar c rest).record = s.record ++ [.readChar c] := rfl
@[simp] theorem State.takeChar_pending (c : Byte) (rest : List Byte) : (s.takeChar c rest).pending = s.pending := rfl
@[simp] theorem State.takeChar_reg (c : Byte) (rest : List Byte) (r : Reg) : (s.takeChar c rest).reg r = s.reg r := rfl

@[simp] theorem State.askAvail_regs : s.askAvail.regs = s.regs := rfl
@[simp] theorem State.askAvail_pc : s.askAvail.pc = s.pc := rfl
@[simp] theorem State.askAvail_cond : s.askAvail.cond = s.cond := rfl
@[simp] theorem State.askAvail_run : s.askAvail.run = s.run := rfl
@[simp] theorem State.askAvail_fault : s.askAvail.fault = s.fault := rfl
@[simp] theorem State.askAvail_mem : s.askAvail.mem = s.mem := rfl
@[simp] theorem State.askAvail_input : s.askAvail.input = s.input := rfl
@[simp] theorem State.askAvail_avail : s.askAvail.avail = s.avail.tail := rfl
@[simp] theorem State.askAvail_availCalls : s.askAvail.availCalls = s.availCalls + 1 := rfl
@[simp] theorem State.askAvail_record : s.askAvail.record = s.record ++ [.availAnswer s.availAnswer] := rfl
@[simp] theorem State.askAvail_pending : s.askAvail.pending = s.pending := rfl
@[simp] theorem State.askAvail_reg (r : Reg) : s.askAvail.reg r = s.reg r := rfl

@[simp] theorem raiseIllegalOpcode_regs (w : Word) : (raiseIllegalOpcode w s).regs = s.regs := rfl
@[simp] theorem raiseIllegalOpcode_pc (w : Word) : (raiseIllegalOpcode w s).pc = s.pc := rfl
@[simp] theorem raiseIllegalOpcode_cond (w : Word) : (raiseIllegalOpcode w s).cond = s.cond := rfl
@[simp] theorem raiseIllegalOpcode_run (w : Word) : (raiseIllegalOpcode w s).run = s.run := rfl
@[simp] theorem raiseIllegalOpcode_fault (w : Word) : (raiseIllegalOpcode w s).fault = some ⟨w, s.pc - 1#16⟩ := rfl
@[simp] theorem raiseIllegalOpcode_mem (w : Word) : (raiseIllegalOpcode w s).mem = s.mem := rfl
@[simp] theorem raiseIllegalOpcode_input (w : Word) : (raiseIllegalOpcode w s).input = s.input := rfl
@[simp] theorem raiseIllegalOpcode_avail (w : Word) : (raiseIllegalOpcode w s).avail = s.avail := rfl
@[simp] theorem raiseIllegalOpcode_availCalls (w : Word) : (raiseIllegalOpcode w s).availCalls = s.availCalls := rfl
@[simp] theorem raiseIllegalOpcode_record (w : Word) : (raiseIllegalOpcode w s).record = s.record := rfl
@[simp] theorem raiseIllegalOpcode_pending (w : Word) : (raiseIllegalOpcode w s).pending = s.pending := rfl
@[simp] theorem raiseIllegalOpcode_reg (w : Word) (r : Reg) : (raiseIllegalOpcode w s).reg r = s.reg r := rfl

@[simp] theorem enterTrap_regs : (enterTrap s).regs = s.regs.set 7 s.pc := rfl
@[simp] theorem enterTrap_pc : (enterTrap s).pc = s.pc := rfl
@[simp] theorem enterTrap_cond : (enterTrap s).cond = s.cond := rfl
@[simp] theorem enterTrap_run : (enterTrap s).run = s.run := rfl
@[simp] theorem enterTrap_fault : (enterTrap s).fault = s.fault := rfl
@[simp] theorem enterTrap_mem : (enterTrap s).mem = s.mem := rfl
@[simp] theorem enterTrap_input : (enterTrap s).input = s.input := rfl
@[simp] theorem enterTrap_avail : (enterTrap s).avail = s.avail := rfl
@[simp] theorem enterTrap_availCalls : (enterTrap s).availCalls = s.availCalls := rfl
@[simp] theorem enterTrap_record : (enterTrap s).record = s.record := rfl
@[simp] theorem enterTrap_pending : (enterTrap s).pending = s.pending := rfl

/-! ## Registers -/

/-- A register read after a register write. -/
@[simp] theorem State.reg_setReg (i r : Reg) (v : Word) :
    (s.setReg i v).reg r = if r = i then v else s.reg r := by
  by_cases h : r = i
  · subst h; simp [State.reg, State.setReg]
  · have : (i : Nat) ≠ r := fun e => h (Fin.ext e.symm)
    simp [State.reg, State.setReg, h, Vector.getElem_set_ne, this]

/-- A register read after trap entry (R120). -/
@[simp] theorem reg_enterTrap (r : Reg) :
    (enterTrap s).reg r = if r = 7 then s.pc else s.reg r := State.reg_setReg s 7 r s.pc

/-- A register read after `setcc`. -/
@[simp] theorem setcc_reg (i r : Reg) : (setcc i s).reg r = s.reg r := rfl

/-! ## writeFlagged (R72, R73) -/

variable (i : Reg) (v : Word)

/-- Registers after a flag-updating write. -/
@[simp] theorem writeFlagged_reg (r : Reg) :
    (writeFlagged i v s).reg r = if r = i then v else s.reg r := State.reg_setReg s i r v

/-- The flag after a flag-updating write is that of the value written. -/
@[simp] theorem writeFlagged_cond : (writeFlagged i v s).cond = classify v := by
  simp [writeFlagged, setcc]

@[simp] theorem writeFlagged_pc : (writeFlagged i v s).pc = s.pc := rfl
@[simp] theorem writeFlagged_run : (writeFlagged i v s).run = s.run := rfl
@[simp] theorem writeFlagged_fault : (writeFlagged i v s).fault = s.fault := rfl
@[simp] theorem writeFlagged_mem : (writeFlagged i v s).mem = s.mem := rfl
@[simp] theorem writeFlagged_input : (writeFlagged i v s).input = s.input := rfl
@[simp] theorem writeFlagged_avail : (writeFlagged i v s).avail = s.avail := rfl
@[simp] theorem writeFlagged_availCalls : (writeFlagged i v s).availCalls = s.availCalls := rfl
@[simp] theorem writeFlagged_record : (writeFlagged i v s).record = s.record := rfl
@[simp] theorem writeFlagged_pending : (writeFlagged i v s).pending = s.pending := rfl

end Sys2Proof.Machine
end

