-- ==== Sys2Proof/Laws/Ops.lean ====
section
/-! SUPPORT. One lemma for each shared operation, saying what it can do: `setcc`'s classification, the
branch test, the keyboard poll and `MemRead`, the string scan, and the trap services. -/

namespace Sys2Proof.Machine

/-! ## Flags (R72, R90) -/

/-- The three cases of R72. -/
theorem classify_cases (v : Word) :
    (v = 0#16 ∧ classify v = .z) ∨ (v ≠ 0#16 ∧ v.getLsbD 15 = true ∧ classify v = .n) ∨
      (v ≠ 0#16 ∧ v.getLsbD 15 = false ∧ classify v = .p) := by
  unfold classify
  by_cases h : v = 0#16
  · simp [h]
  · cases v.getLsbD 15 <;> simp [h]

/-- Bit 15 as a bound on the unsigned value (R72's table). -/
theorem getLsbD_15_iff (v : Word) : v.getLsbD 15 = true ↔ 0x8000 ≤ v.toNat := by
  have h := BitVec.msb_eq_decide v
  rw [BitVec.msb_eq_getLsbD_last] at h
  rw [show (15 : Nat) = 16 - 1 from rfl, h]
  exact decide_eq_true_iff

/-- BR's test in R90's numeric form: the requested bits against `COND`. -/
theorem brTaken_iff_bits (n z p : Bool) (c : Cond) :
    brTaken n z p c = true ↔
      (BitVec.ofBool n ++ BitVec.ofBool z ++ BitVec.ofBool p) &&& c.bits ≠ 0 := by
  cases n <;> cases z <;> cases p <;> cases c <;> decide

/-- `classify` gives the flag R72's table gives, by unsigned value. -/
theorem classify_table (v : Word) :
    (v = 0#16 → classify v = .z) ∧ (1 ≤ v.toNat ∧ v.toNat ≤ 0x7FFF → classify v = .p) ∧
      (0x8000 ≤ v.toNat → classify v = .n) := by
  have h15 := getLsbD_15_iff v
  refine ⟨fun h => by simp [classify, h], fun h => ?_, fun h => ?_⟩ <;>
    rcases classify_cases v with ⟨e, c⟩ | ⟨e, b, c⟩ | ⟨e, b, c⟩ <;> simp_all <;> omega

/-- A character zero-extended, as a bit string (D8). -/
theorem zext16_eq_append (c : Byte) : zext16 c = 0#8 ++ c := by
  apply BitVec.eq_of_toNat_eq
  rw [toNat_concat, zext16]
  simp
  omega

/-! ## The keyboard poll and `MemRead` (R30, R31) -/

/-- The law of R23: `IO.Avail` answers true only where a character can be read at once. -/
theorem availAnswer_true {s : State} (h : s.availAnswer = true) : ∃ c rest, s.input = c :: rest := by
  unfold State.availAnswer at h
  cases hi : s.input with
  | nil => simp [hi] at h
  | cons c rest => exact ⟨c, rest, rfl⟩

/-- What a poll does: it found a character and latched it, or found none (R31). -/
theorem pollKeyboard_cases (s : State) :
    (∃ c rest, s.availAnswer = true ∧ s.input = c :: rest ∧
      pollKeyboard s =
        ((s.askAvail.takeChar c rest).poke kbdrAddr (zext16 c)).pokeKbsr true) ∨
    (s.availAnswer = false ∧ pollKeyboard s = s.askAvail.pokeKbsr false) := by
  cases h : s.availAnswer with
  | true =>
    obtain ⟨c, rest, hi⟩ := availAnswer_true h
    exact .inl ⟨c, rest, rfl, hi, by simp [pollKeyboard, h, hi]⟩
  | false => exact .inr ⟨rfl, by simp [pollKeyboard, h]⟩

/-- What a poll leaves alone: registers, pc, flags, run state, fault record, service in progress, and
every word but KBSR's and KBDR's. -/
theorem pollKeyboard_frame (s : State) :
    (pollKeyboard s).regs = s.regs ∧ (pollKeyboard s).pc = s.pc ∧
      (pollKeyboard s).cond = s.cond ∧ (pollKeyboard s).run = s.run ∧
      (pollKeyboard s).fault = s.fault ∧ (pollKeyboard s).pending = s.pending ∧
      ∀ a, a ≠ kbsrAddr → a ≠ kbdrAddr → (pollKeyboard s).mem.read a = s.mem.read a := by
  rcases pollKeyboard_cases s with ⟨c, rest, -, -, h⟩ | ⟨-, h⟩ <;> rw [h] <;>
    refine ⟨rfl, rfl, rfl, rfl, rfl, rfl, fun a hs hd => ?_⟩ <;>
    simp [State.pokeKbsr, Memory.read_write, hs, hd]

/-- A poll keeps memory canonical. -/
theorem pollKeyboard_wf {s : State} (h : s.mem.wf) : (pollKeyboard s).mem.wf := by
  rcases pollKeyboard_cases s with ⟨c, rest, -, -, e⟩ | ⟨-, e⟩ <;> rw [e]
  · exact Memory.wf_write (Memory.wf_write h _ _) _ _
  · exact Memory.wf_write h _ _

/-- What a poll adds to the record is never output (R148). -/
theorem pollKeyboard_record (s : State) :
    ∃ es, (pollKeyboard s).record = s.record ++ es ∧
      ∀ e ∈ es, (∃ b, e = .availAnswer b) ∨ ∃ c, e = .readChar c := by
  rcases pollKeyboard_cases s with ⟨c, rest, -, -, h⟩ | ⟨-, h⟩ <;> rw [h]
  · exact ⟨[.availAnswer s.availAnswer, .readChar c], by simp [State.pokeKbsr], by simp⟩
  · exact ⟨[.availAnswer s.availAnswer], by simp [State.pokeKbsr], by simp⟩

/-- A `MemRead` elsewhere changes nothing (R30). -/
theorem touch_of_ne {a : Word} (s : State) (h : a ≠ kbsrAddr) : touch a s = s := by
  simp [touch, h]

/-- A `MemRead` of `KBSR_ADDR` polls (R30). -/
theorem touch_kbsr (s : State) : touch kbsrAddr s = pollKeyboard s := by simp [touch]

variable (a : Word) (s : State)

@[simp] theorem memRead_fst : (memRead a s).1 = (touch a s).mem.read a := rfl
@[simp] theorem memRead_snd : (memRead a s).2 = touch a s := rfl
@[simp] theorem touch_regs : (touch a s).regs = s.regs := by
  unfold touch; split
  · exact (pollKeyboard_frame s).1
  · rfl
@[simp] theorem touch_reg (r : Reg) : (touch a s).reg r = s.reg r := by simp [State.reg]
@[simp] theorem touch_pc : (touch a s).pc = s.pc := by
  unfold touch; split
  · exact (pollKeyboard_frame s).2.1
  · rfl
@[simp] theorem touch_cond : (touch a s).cond = s.cond := by
  unfold touch; split
  · exact (pollKeyboard_frame s).2.2.1
  · rfl
@[simp] theorem touch_run : (touch a s).run = s.run := by
  unfold touch; split
  · exact (pollKeyboard_frame s).2.2.2.1
  · rfl
@[simp] theorem touch_fault : (touch a s).fault = s.fault := by
  unfold touch; split
  · exact (pollKeyboard_frame s).2.2.2.2.1
  · rfl
@[simp] theorem touch_pending : (touch a s).pending = s.pending := by
  unfold touch; split
  · exact (pollKeyboard_frame s).2.2.2.2.2.1
  · rfl
/-- The words a `MemRead` leaves alone: all but the two device registers' (R31). -/
theorem touch_read {b : Word} (hs : b ≠ kbsrAddr) (hd : b ≠ kbdrAddr) :
    (touch a s).mem.read b = s.mem.read b := by
  unfold touch; split
  · exact (pollKeyboard_frame s).2.2.2.2.2.2 b hs hd
  · rfl
theorem touch_wf {s : State} (h : s.mem.wf) : (touch a s).mem.wf := by
  unfold touch; split
  · exact pollKeyboard_wf h
  · exact h

/-! ## The string scan (R126, R129, R132) -/

/-- A scan that meets its first zero word after n words gives exactly those n words. -/
theorem stringWords_of_zero (m : Memory) : ∀ (fuel n : Nat) (a : Word), n < fuel →
    m.read (a + BitVec.ofNat 16 n) = 0#16 →
    (∀ k < n, m.read (a + BitVec.ofNat 16 k) ≠ 0#16) →
    stringWords m fuel a = ((List.range n).map fun k => m.read (a + BitVec.ofNat 16 k), true)
  | 0, n, a, h, _, _ => absurd h (by omega)
  | fuel + 1, 0, a, _, hz, _ => by simp at hz; simp [stringWords, hz]
  | fuel + 1, n + 1, a, h, hz, hn => by
    have h0 : m.read a ≠ 0#16 := by simpa using hn 0 (by omega)
    have step : ∀ k, a + BitVec.ofNat 16 (k + 1) = a + 1#16 + BitVec.ofNat 16 k := by
      intro k
      rw [BitVec.add_assoc, BitVec.ofNat_add k 1, BitVec.add_comm (BitVec.ofNat 16 k)]
    have ih := stringWords_of_zero m fuel n (a + 1#16) (by omega) (by rw [← step]; exact hz)
      (fun k hk => by rw [← step]; exact hn (k + 1) (by omega))
    have tail : (fun k => m.read (a + 1#16 + BitVec.ofNat 16 k)) =
        (fun k => m.read (a + BitVec.ofNat 16 k)) ∘ Nat.succ :=
      funext fun k => congrArg m.read (step k).symm
    rw [stringWords, if_neg h0, ih, List.range_succ_eq_map, List.map_cons, List.map_map, tail,
      show a + BitVec.ofNat 16 0 = a from BitVec.add_zero a]

/-- A scan of a memory with no zero word gives every word it looks at, in order, and meets no end. -/
theorem stringWords_of_nonzero (m : Memory) (h : ∀ a, m.read a ≠ 0#16) : ∀ (fuel : Nat) (a : Word),
    stringWords m fuel a = ((List.range fuel).map fun k => m.read (a + BitVec.ofNat 16 k), false)
  | 0, a => rfl
  | fuel + 1, a => by
    have step : ∀ k, a + BitVec.ofNat 16 (k + 1) = a + 1#16 + BitVec.ofNat 16 k := by
      intro k
      rw [BitVec.add_assoc, BitVec.ofNat_add k 1, BitVec.add_comm (BitVec.ofNat 16 k)]
    have tail : (fun k => m.read (a + 1#16 + BitVec.ofNat 16 k)) =
        (fun k => m.read (a + BitVec.ofNat 16 k)) ∘ Nat.succ :=
      funext fun k => congrArg m.read (step k).symm
    rw [stringWords, if_neg (h a), stringWords_of_nonzero m h fuel (a + 1#16),
      List.range_succ_eq_map, List.map_cons, List.map_map, tail,
      show a + BitVec.ofNat 16 0 = a from BitVec.add_zero a]

/-- A string service over a memory with no zero word writes one whole turn of characters and stays in
progress (R129). -/
theorem serviceString_of_nonzero (chars : Word → List Byte) (again : Service) (a : Word) (s : State)
    (h : ∀ b, s.mem.read b ≠ 0#16) :
    serviceString chars again a s =
      (s.log ((List.range 65536).flatMap fun k =>
        (chars (s.mem.read (a + BitVec.ofNat 16 k))).map .writeChar)).setPending (some again) := by
  rw [serviceString, stringWords_of_nonzero s.mem h]
  simp only [Bool.false_eq_true, if_false, List.flatMap_map, List.map_flatMap]

/-! ## The trap services: what each can do -/

/-- GETC completes with the next character, or waits (R22, R122). -/
theorem serviceGetc_cases (s : State) :
    (s.input = [] ∧ serviceGetc s = s.setPending (some .getc)) ∨
    ∃ c rest, s.input = c :: rest ∧
      serviceGetc s = writeFlagged 0 (zext16 c) ((s.takeChar c rest).setPending none) := by
  cases h : s.input <;> simp [serviceGetc, h]

/-- IN after its prompt completes with the next character, or waits (R22, R130). -/
theorem finishIn_cases (s : State) :
    (s.input = [] ∧ finishIn s = s.setPending (some .inp)) ∨
    ∃ c rest, s.input = c :: rest ∧
      finishIn s = writeFlagged 0 (zext16 c)
        (((s.takeChar c rest).log [.writeChar c, .flush]).setPending none) := by
  cases h : s.input <;> simp [finishIn, h]

/-- A scan writes characters and completes, or writes a whole turn of them and goes on (R126, R129,
R132). -/
theorem serviceString_cases (chars : Word → List Byte) (again : Service) (a : Word) (s : State) :
    (∃ cs : List Byte, serviceString chars again a s =
      (s.log (cs.map .writeChar ++ [.flush])).setPending none) ∨
    (∃ cs : List Byte, serviceString chars again a s =
      (s.log (cs.map .writeChar)).setPending (some again)) := by
  unfold serviceString
  split
  · exact .inl ⟨_, rfl⟩
  · exact .inr ⟨_, rfl⟩

/-- The trap dispatcher performs one of the six services or none (R120). -/
theorem dispatchTrap_cases (v : BitVec 8) (s : State) :
    (v = tvGetc ∧ dispatchTrap v s = serviceGetc s) ∨
    (v = tvOut ∧ dispatchTrap v s = serviceOut s) ∨
    (v = tvPuts ∧ dispatchTrap v s = servicePuts (s.reg 0) s) ∨
    (v = tvIn ∧ dispatchTrap v s = finishIn (promptIn s)) ∨
    (v = tvPutsp ∧ dispatchTrap v s = servicePutsp (s.reg 0) s) ∨
    (v = tvHalt ∧ dispatchTrap v s = serviceHalt s) ∨
    (v ∉ serviceVectors ∧ dispatchTrap v s = s) := by
  by_cases h1 : v = tvGetc
  · subst h1; exact .inl ⟨rfl, rfl⟩
  by_cases h2 : v = tvOut
  · subst h2; exact .inr (.inl ⟨rfl, rfl⟩)
  by_cases h3 : v = tvPuts
  · subst h3; exact .inr (.inr (.inl ⟨rfl, rfl⟩))
  by_cases h4 : v = tvIn
  · subst h4; exact .inr (.inr (.inr (.inl ⟨rfl, rfl⟩)))
  by_cases h5 : v = tvPutsp
  · subst h5; exact .inr (.inr (.inr (.inr (.inl ⟨rfl, rfl⟩))))
  by_cases h6 : v = tvHalt
  · subst h6; exact .inr (.inr (.inr (.inr (.inr (.inl ⟨rfl, rfl⟩)))))
  · refine .inr (.inr (.inr (.inr (.inr (.inr ⟨?_, ?_⟩)))))
    · simp [serviceVectors, h1, h2, h3, h4, h5, h6]
    · simp [dispatchTrap, h1, h2, h3, h4, h5, h6]

end Sys2Proof.Machine
end

