-- ==== Sys2Proof/Laws/PerInstr.lean ====
section
/-! SUPPORT. Statements made per instruction. RoundTrip: decoding the word of a well-formed instruction
gives its row (spec/30_encoding.md R52, R56). -/

namespace Sys2Proof.Laws.RoundTrip

/-- The decoder answers the row of the instruction's own word. -/
def Statement (i : Instr) : Prop := i.WellFormed = true → decodeWord (encode i) = canonical i

theorem br (n z p : Bool) (off9 : BitVec 9) : Statement (.br n z p off9) := fun _ => by
  have h := fields_br opcBr (BitVec.ofBool n) (BitVec.ofBool z) (BitVec.ofBool p) off9
  unfold encode canonical
  rw [decodeWord_br _ h.1, h.2.1, h.2.2.1, h.2.2.2.1, h.2.2.2.2]
  simp

theorem addReg (dr sr1 sr2 : Reg) : Statement (.addReg dr sr1 sr2) := fun _ => by
  have h := fields_ar opcAdd (regBits dr) (regBits sr1) (regBits sr2) 0#1 0#2
  unfold encode canonical
  rw [decodeWord_add _ h.1, h.2.1, h.2.2.1, h.2.2.2.1, h.2.2.2.2]
  rfl

theorem addImm (dr sr1 : Reg) (imm5 : BitVec 5) : Statement (.addImm dr sr1 imm5) := fun _ => by
  have h := fields_ai opcAdd (regBits dr) (regBits sr1) 1#1 imm5
  unfold encode canonical
  rw [decodeWord_add _ h.1, h.2.1, h.2.2.1, h.2.2.2.1, h.2.2.2.2]
  rfl

theorem andReg (dr sr1 sr2 : Reg) : Statement (.andReg dr sr1 sr2) := fun _ => by
  have h := fields_ar opcAnd (regBits dr) (regBits sr1) (regBits sr2) 0#1 0#2
  unfold encode canonical
  rw [decodeWord_and _ h.1, h.2.1, h.2.2.1, h.2.2.2.1, h.2.2.2.2]
  rfl

theorem andImm (dr sr1 : Reg) (imm5 : BitVec 5) : Statement (.andImm dr sr1 imm5) := fun _ => by
  have h := fields_ai opcAnd (regBits dr) (regBits sr1) 1#1 imm5
  unfold encode canonical
  rw [decodeWord_and _ h.1, h.2.1, h.2.2.1, h.2.2.2.1, h.2.2.2.2]
  rfl

theorem ld (dr : Reg) (off9 : BitVec 9) : Statement (.ld dr off9) := fun _ => by
  have h := fields_pc9 opcLd (regBits dr) off9
  unfold encode canonical
  rw [decodeWord_ld _ h.1, h.2.1, h.2.2]
  rfl

theorem st (sr : Reg) (off9 : BitVec 9) : Statement (.st sr off9) := fun _ => by
  have h := fields_pc9 opcSt (regBits sr) off9
  unfold encode canonical
  rw [decodeWord_st _ h.1, h.2.1, h.2.2]
  rfl

theorem ldi (dr : Reg) (off9 : BitVec 9) : Statement (.ldi dr off9) := fun _ => by
  have h := fields_pc9 opcLdi (regBits dr) off9
  unfold encode canonical
  rw [decodeWord_ldi _ h.1, h.2.1, h.2.2]
  rfl

theorem sti (sr : Reg) (off9 : BitVec 9) : Statement (.sti sr off9) := fun _ => by
  have h := fields_pc9 opcSti (regBits sr) off9
  unfold encode canonical
  rw [decodeWord_sti _ h.1, h.2.1, h.2.2]
  rfl

theorem lea (dr : Reg) (off9 : BitVec 9) : Statement (.lea dr off9) := fun _ => by
  have h := fields_pc9 opcLea (regBits dr) off9
  unfold encode canonical
  rw [decodeWord_lea _ h.1, h.2.1, h.2.2]
  rfl

theorem ldr (dr base : Reg) (off6 : BitVec 6) : Statement (.ldr dr base off6) := fun _ => by
  have h := fields_bo6 opcLdr (regBits dr) (regBits base) off6
  unfold encode canonical
  rw [decodeWord_ldr _ h.1, h.2.1, h.2.2.1, h.2.2.2]
  rfl

theorem str (sr base : Reg) (off6 : BitVec 6) : Statement (.str sr base off6) := fun _ => by
  have h := fields_bo6 opcStr (regBits sr) (regBits base) off6
  unfold encode canonical
  rw [decodeWord_str _ h.1, h.2.1, h.2.2.1, h.2.2.2]
  rfl

theorem not (dr sr : Reg) : Statement (.not dr sr) := fun _ => by
  have h := fields_bo6 opcNot (regBits dr) (regBits sr) 0b111111#6
  unfold encode canonical
  rw [decodeWord_not _ h.1, h.2.1, h.2.2.1]
  rfl

theorem jsr (off11 : BitVec 11) : Statement (.jsr off11) := fun _ => by
  have h := fields_j11 opcJsr 1#1 off11
  unfold encode canonical
  rw [decodeWord_jsr _ h.1, h.2.1, h.2.2]
  rfl

theorem jsrr (base : Reg) : Statement (.jsrr base) := fun _ => by
  have h := fields_jr opcJsr (regBits base) 0#1 0#2 0#6
  unfold encode canonical
  rw [decodeWord_jsr _ h.1, h.2.1, h.2.2]
  rfl

theorem jmp (base : Reg) : Statement (.jmp base) := fun _ => by
  have h := fields_bo6 opcJmp 0#3 (regBits base) 0#6
  unfold encode canonical
  rw [decodeWord_jmp _ h.1, h.2.2.1]
  rfl

theorem ret : Statement .ret := fun _ => by
  have h := fields_bo6 opcJmp 0#3 (regBits 7) 0#6
  unfold encode canonical
  rw [decodeWord_jmp _ h.1, h.2.2.1]
  rfl

theorem reserved8 (rest : BitVec 12) : Statement (.reserved8 rest) := fun _ => by
  have h := fields_rest opcReserved8 rest
  unfold encode canonical
  rw [decodeWord_reserved8 _ h.1, h.2]

theorem reserved13 (rest : BitVec 12) : Statement (.reserved13 rest) := fun _ => by
  have h := fields_rest opcReserved13 rest
  unfold encode canonical
  rw [decodeWord_reserved13 _ h.1, h.2]

theorem trap (vect : BitVec 8) : Statement (.trap vect) := fun _ => by
  have h := fields_t8 opcTrap 0#4 vect
  unfold encode canonical
  rw [decodeWord_trap _ h.1, h.2]

theorem getc : Statement .getc := fun _ => by
  have h := fields_t8 opcTrap 0#4 tvGetc
  unfold encode canonical
  rw [decodeWord_trap _ h.1, h.2]
  rfl

theorem out : Statement .out := fun _ => by
  have h := fields_t8 opcTrap 0#4 tvOut
  unfold encode canonical
  rw [decodeWord_trap _ h.1, h.2]
  rfl

theorem puts : Statement .puts := fun _ => by
  have h := fields_t8 opcTrap 0#4 tvPuts
  unfold encode canonical
  rw [decodeWord_trap _ h.1, h.2]
  rfl

theorem inp : Statement .inp := fun _ => by
  have h := fields_t8 opcTrap 0#4 tvIn
  unfold encode canonical
  rw [decodeWord_trap _ h.1, h.2]
  rfl

theorem putsp : Statement .putsp := fun _ => by
  have h := fields_t8 opcTrap 0#4 tvPutsp
  unfold encode canonical
  rw [decodeWord_trap _ h.1, h.2]
  rfl

theorem halt : Statement .halt := fun _ => by
  have h := fields_t8 opcTrap 0#4 tvHalt
  unfold encode canonical
  rw [decodeWord_trap _ h.1, h.2]
  rfl

theorem trapOther (vect : BitVec 8) : Statement (.trapOther vect) := fun hw => by
  have h := fields_t8 opcTrap 0#4 vect
  unfold encode canonical
  rw [decodeWord_trap _ h.1, h.2]
  exact decodeTrap_of_not_service (by simpa [Instr.WellFormed] using hw)

end Sys2Proof.Laws.RoundTrip
end

