-- ==== Sys2Proof/Laws/Step.lean ====
section
/-! SUPPORT. What a step and a service can do, said once: the inversion lemma of `step`, and the frames of
the trap services. -/

namespace Sys2Proof.Machine

/-- A step that answers next started unfaulted and Running, and either went on with a service or executed
the instruction fetched (R70). -/
theorem step_cases {s t : State} (h : step s = .next t) :
    s.fault = none ∧ s.run = .running ∧
      ((∃ v, s.pending = some v ∧ t = resume v s) ∨
        (s.pending = none ∧ exec (decodeWord (fetchWord s)) (afterFetch s) = .next t)) := by
  unfold step at h
  split at h
  · cases h
  · cases h
  · rename_i v hf hr hp
    exact ⟨hf, hr, .inl ⟨v, hp, by cases h; rfl⟩⟩
  · rename_i hf hr hp
    exact ⟨hf, hr, .inr ⟨hp, h⟩⟩

/-- A ready state's step (R70). -/
theorem step_of_ready {s : State} (h : s.Ready) :
    step s = exec (decodeWord (fetchWord s)) (afterFetch s) := by
  obtain ⟨hf, hr, hp⟩ := h
  simp [step, hf, hr, hp]

/-- A step with a service in progress goes on with it. -/
theorem step_of_pending {s : State} {v : Service} (hf : s.fault = none) (hr : s.run = .running)
    (hp : s.pending = some v) : step s = .next (resume v s) := by
  simp [step, hf, hr, hp]

/-- A run whose first step answers next goes on from there. -/
theorem core_run_succ {s t : State} (k : Nat) (h : step s = .next t) :
    Sys2Proof.core.run (k + 1) s = Sys2Proof.core.run k t := by
  have run_succ : ∀ (M : Host.Core) (s t : M.State), M.step s = .next t →
      M.run (k + 1) s = M.run k t := fun M s t h => by rw [Host.Core.run, h]
  exact run_succ Sys2Proof.core s t h

/-- The frame of a service: t keeps pc, run state, fault record and memory of s. -/
structure ServiceFrame (s t : State) : Prop where
  pc : t.pc = s.pc
  run : t.run = s.run
  fault : t.fault = s.fault
  mem : t.mem = s.mem
  regs : ∀ r, r ≠ 0 → t.reg r = s.reg r

theorem serviceGetc_frame (s : State) : ServiceFrame s (serviceGetc s) := by
  rcases serviceGetc_cases s with ⟨-, h⟩ | ⟨c, rest, -, h⟩ <;> rw [h] <;>
    constructor <;> simp +contextual

theorem finishIn_frame (s : State) : ServiceFrame s (finishIn s) := by
  rcases finishIn_cases s with ⟨-, h⟩ | ⟨c, rest, -, h⟩ <;> rw [h] <;>
    constructor <;> simp +contextual

/-- A string service changes only the record and the service in progress. -/
theorem serviceString_frame (chars : Word → List Byte) (again : Service) (a : Word) (s : State) :
    ServiceFrame s (serviceString chars again a s) ∧
      (serviceString chars again a s).cond = s.cond ∧
      (serviceString chars again a s).reg 0 = s.reg 0 ∧
      (serviceString chars again a s).input = s.input ∧
      (serviceString chars again a s).avail = s.avail ∧
      (serviceString chars again a s).availCalls = s.availCalls := by
  rcases serviceString_cases chars again a s with ⟨cs, h⟩ | ⟨cs, h⟩ <;> rw [h] <;>
    exact ⟨by constructor <;> simp, rfl, rfl, rfl, rfl, rfl⟩

/-- Every service in progress keeps pc, run state, fault record, memory and R1 to R7. -/
theorem resume_frame (v : Service) (s : State) : ServiceFrame s (resume v s) := by
  cases v with
  | getc => exact serviceGetc_frame s
  | inp => exact finishIn_frame s
  | puts a => exact (serviceString_frame ..).1
  | putsp a => exact (serviceString_frame ..).1

end Sys2Proof.Machine
end

