-- ==== Sys2Proof/Tests/Slice0.lean ====
section
/-! SUPPORT. The model's own tests. Expected results come from spec/95_test_vectors.md (the vector's id
stands at each test) or from the rule named; each runs one step. After them, for every statement of
Certificates/Slice0/Obligations.lean that has hypotheses, a witness that meets them. -/

namespace Sys2Proof.Tests

open Sys2Proof.Machine

/-! ## WellFormed: one ill-formed term for each check -/

/-- R136: a service's vector is no TRAP_OTHER. -/
theorem test_wellFormed_refuses_service_vector :
    (Instr.trapOther 0x25#8).WellFormed = false := by decide
theorem test_wellFormed_accepts_other_vector :
    (Instr.trapOther 0x26#8).WellFormed = true := by decide

/-! ## Decoding: words written out bit by bit from R52 and R56 -/

theorem test_decode_br : decodeWord 0b0000_101_000000010#16 = .br true false true 2#9 := by decide
theorem test_decode_add_register :
    decodeWord 0b0001_100_101_0_00_110#16 = .addReg 4 5 6 := by decide
/-- E4: bits [4:3] ignored. -/
theorem test_decode_add_register_ignored :
    decodeWord 0b0001_111_111_0_11_111#16 = .addReg 7 7 7 := by decide
theorem test_decode_add_immediate :
    decodeWord 0b0001_010_011_1_10000#16 = .addImm 2 3 0b10000#5 := by decide
theorem test_decode_ld : decodeWord 0b0010_010_000000110#16 = .ld 2 6#9 := by decide
theorem test_decode_st : decodeWord 0b0011_101_111111111#16 = .st 5 0x1FF#9 := by decide
theorem test_decode_jsr : decodeWord 0b0100_1_10000000000#16 = .jsr 0x400#11 := by decide
/-- E8. -/
theorem test_decode_jsrr : decodeWord 0b0100_0_11_111_111111#16 = .jsrr 7 := by decide
theorem test_decode_and_register :
    decodeWord 0b0101_010_000_0_00_001#16 = .andReg 2 0 1 := by decide
theorem test_decode_and_immediate :
    decodeWord 0b0101_011_100_1_01111#16 = .andImm 3 4 15#5 := by decide
theorem test_decode_ldr : decodeWord 0b0110_000_110_000001#16 = .ldr 0 6 1#6 := by decide
theorem test_decode_str : decodeWord 0b0111_001_010_100000#16 = .str 1 2 0x20#6 := by decide
/-- E14. -/
theorem test_decode_reserved8 :
    decodeWord 0b1000_111111111111#16 = .reserved8 0xFFF#12 := by decide
/-- E15: the low bits of NOT are ignored. -/
theorem test_decode_not : decodeWord 0b1001_001_010_000000#16 = .not 1 2 := by decide
theorem test_decode_ldi : decodeWord 0b1010_111_111111111#16 = .ldi 7 0x1FF#9 := by decide
theorem test_decode_sti : decodeWord 0b1011_001_000000101#16 = .sti 1 5#9 := by decide
/-- K12: the other bits of JMP are ignored. -/
theorem test_decode_jmp : decodeWord 0b1100_111_010_111111#16 = .jmp 2 := by decide
/-- E19. -/
theorem test_decode_ret : decodeWord 0b1100_111_111_111111#16 = .ret := by decide
/-- E20. -/
theorem test_decode_reserved13 :
    decodeWord 0b1101_000000000000#16 = .reserved13 0#12 := by decide
theorem test_decode_lea : decodeWord 0b1110_110_000001011#16 = .lea 6 11#9 := by decide
theorem test_decode_getc : decodeWord 0b1111_0000_00100000#16 = .getc := by decide
theorem test_decode_out : decodeWord 0b1111_0000_00100001#16 = .out := by decide
theorem test_decode_puts : decodeWord 0b1111_0000_00100010#16 = .puts := by decide
theorem test_decode_in : decodeWord 0b1111_0000_00100011#16 = .inp := by decide
theorem test_decode_putsp : decodeWord 0b1111_0000_00100100#16 = .putsp := by decide
/-- T16. -/
theorem test_decode_halt : decodeWord 0b1111_1111_00100101#16 = .halt := by decide
/-- E22, E24, E25. -/
theorem test_decode_trap_other :
    decodeWord 0b1111_0000_00011111#16 = .trapOther 0x1F#8 ∧
    decodeWord 0b1111_0000_00100110#16 = .trapOther 0x26#8 ∧
    decodeWord 0b1111_1111_11111111#16 = .trapOther 0xFF#8 := by decide
/-- TRAP's generic row: its word is that of the vector's row (R56). -/
theorem test_encode_trap :
    encode (.trap 0x21#8) = 0xF021#16 ∧ canonical (.trap 0x21#8) = .out := by decide
/-- R62's examples: the words of ADD R1, R1, #-1, NOT R0, R0, RET. -/
theorem test_encode_conventional_bits :
    encode (.addImm 1 1 0x1F#5) = 0x127F#16 ∧ encode (.not 0 0) = 0x903F#16 ∧
    encode .ret = 0xC1C0#16 := by decide
/-- R162: the bytes of an image are high byte first, and half a word is no instruction. -/
theorem test_decodeBytes :
    decodeBytes [0xC1#8, 0xC0#8, 0x12#8] = .ok (.ret, [0x12#8]) ∧
    decodeBytes [0xC1#8] = .error .truncated := ⟨rfl, rfl⟩
theorem test_decodeTableWord :
    decodeTableWord 16 0xF025 = some .halt ∧ decodeTableWord 32 0 = none := by decide

/-! ## One step -/

/-- The reset state with pc at an address and a word placed there. -/
def at' (pc w : Word) : State := placeWord (State.reset.setPc pc) w

/-- Whether an outcome is a next state of which p holds. -/
def nextIs (o : Host.Outcome State Fault Refusal) (p : State → Bool) : Bool :=
  match o with
  | .next t => p t
  | .fault _ => false
  | .refused _ => false

/-- A6: sources are read before the destination is written, and the sum wraps. -/
theorem test_add_register_wraps :
    nextIs (step ((at' 0x3000#16 0x1241#16).setReg 1 0x8000#16))
      (fun t => t.reg 1 = 0#16 ∧ t.cond = .z ∧ t.pc = 0x3001#16) = true := by decide
/-- A2. -/
theorem test_add_immediate_overflow_is_negative :
    nextIs (step ((at' 0x3000#16 0x1021#16).setReg 0 0x7FFF#16))
      (fun t => t.reg 0 = 0x8000#16 ∧ t.cond = .n) = true := by decide
/-- A4. -/
theorem test_add_immediate_lowest :
    nextIs (step ((at' 0x3000#16 0x14F0#16).setReg 3 0x000F#16))
      (fun t => t.reg 2 = 0xFFFF#16 ∧ t.cond = .n) = true := by decide
/-- A10. -/
theorem test_and_register :
    nextIs (step (((at' 0x3000#16 0x5401#16).setReg 0 0xF0F0#16).setReg 1 0xFF00#16))
      (fun t => t.reg 2 = 0xF000#16 ∧ t.cond = .n) = true := by decide
/-- A13: the immediate is sign-extended. -/
theorem test_and_immediate_sign_extended :
    nextIs (step ((at' 0x3000#16 0x5730#16).setReg 4 0x12FF#16))
      (fun t => t.reg 3 = 0x12F0#16 ∧ t.cond = .p) = true := by decide
/-- A17. -/
theorem test_not_to_zero :
    nextIs (step (((at' 0x3000#16 0x92BF#16).setReg 2 0xFFFF#16).setCond .n))
      (fun t => t.reg 1 = 0#16 ∧ t.cond = .z) = true := by decide
/-- K6: the incremented pc wraps before the offset is added. -/
theorem test_br_wraps :
    nextIs (step (at' 0xFFFF#16 0x0402#16)) (fun t => t.pc = 2#16) = true := by decide
/-- K2. -/
theorem test_br_not_taken :
    nextIs (step (at' 0x3005#16 0x03FD#16)) (fun t => t.pc = 0x3006#16) = true := by decide
/-- K10: the register's value, not its index. -/
theorem test_jmp :
    nextIs (step ((at' 0x3000#16 0xC080#16).setReg 2 0x4000#16))
      (fun t => t.pc = 0x4000#16) = true := by decide
/-- K11. -/
theorem test_ret :
    nextIs (step ((at' 0x3000#16 0xC1C0#16).setReg 7 0x3003#16))
      (fun t => t.pc = 0x3003#16 ∧ t.reg 7 = 0x3003#16) = true := by decide
/-- K16. -/
theorem test_jsr_wraps :
    nextIs (step (at' 0xFFFE#16 0x4BFF#16))
      (fun t => t.reg 7 = 0xFFFF#16 ∧ t.pc = 0x03FE#16) = true := by decide
/-- K9: R7 is written before the base is read. -/
theorem test_jsrr_r7 :
    nextIs (step ((at' 0x3005#16 0x41C0#16).setReg 7 0x4000#16))
      (fun t => t.reg 7 = 0x3006#16 ∧ t.pc = 0x3006#16) = true := by decide
/-- K17. -/
theorem test_jsrr :
    nextIs (step ((at' 0x3005#16 0x4080#16).setReg 2 0x3008#16))
      (fun t => t.reg 7 = 0x3006#16 ∧ t.pc = 0x3008#16) = true := by decide
/-- L2: LD of its own word. -/
theorem test_ld_own_word :
    nextIs (step (at' 0x3000#16 0x21FF#16))
      (fun t => t.reg 0 = 0x21FF#16 ∧ t.cond = .p) = true := by decide
/-- L5. -/
theorem test_ldi :
    nextIs (step (((at' 0x3002#16 0xA207#16).poke 0x300A#16 0x4000#16).poke 0x4000#16 0x7FFF#16))
      (fun t => t.reg 1 = 0x7FFF#16 ∧ t.cond = .p) = true := by decide
/-- M5: a read of KBDR is plain. -/
theorem test_ldi_of_kbdr_asks_nothing :
    nextIs (step ((((at' 0x3000#16 0xA200#16).poke 0x3001#16 0xFE02#16).poke 0xFE02#16 0x41#16).poke
        0xFE00#16 0x8000#16))
      (fun t => t.reg 1 = 0x41#16 ∧ t.record = [] ∧ t.mem.read 0xFE00#16 = 0x8000#16) = true := by
  decide
/-- L8: the base is read before DR is written. -/
theorem test_ldr_base_is_destination :
    nextIs (step (((at' 0x3000#16 0x6240#16).setReg 1 0x4000#16).poke 0x4000#16 0xFFFF#16))
      (fun t => t.reg 1 = 0xFFFF#16 ∧ t.cond = .n) = true := by decide
/-- L10: the address wraps downward. -/
theorem test_ldr_wraps :
    nextIs (step ((at' 0x3000#16 0x64FF#16).poke 0xFFFF#16 0x8001#16))
      (fun t => t.reg 2 = 0x8001#16) = true := by decide
/-- L13: LEA sets the flags from the address, off the wrapped pc. -/
theorem test_lea_wraps :
    nextIs (step (at' 0xFFFF#16 0xE1FF#16))
      (fun t => t.reg 0 = 0xFFFF#16 ∧ t.cond = .n ∧ t.pc = 0#16) = true := by decide
/-- L17. -/
theorem test_st_over_itself :
    nextIs (step (((at' 0x3000#16 0x3BFF#16).setReg 5 0xABCD#16).setCond .n))
      (fun t => t.mem.read 0x3000#16 = 0xABCD#16 ∧ t.cond = .n ∧ t.pc = 0x3001#16) = true := by
  decide
/-- L19: the pointer is overwritten by the datum. -/
theorem test_sti_through_own_cell :
    nextIs (step (((at' 0x3000#16 0xB200#16).setReg 1 0x1111#16).poke 0x3001#16 0x3001#16))
      (fun t => t.mem.read 0x3001#16 = 0x1111#16 ∧ t.reg 1 = 0x1111#16) = true := by decide
/-- M6: a store through a pointer to KBSR does not poll. -/
theorem test_sti_to_kbsr_is_plain :
    nextIs (step (((at' 0x3000#16 0xB400#16).setReg 2 0x8000#16).poke 0x3001#16 0xFE00#16))
      (fun t => t.mem.read 0xFE00#16 = 0x8000#16 ∧ t.record = []) = true := by decide
/-- L22: the address wraps. -/
theorem test_str_wraps :
    nextIs (step ((at' 0x3000#16 0x74FF#16).setReg 2 0x77#16))
      (fun t => t.mem.read 0xFFFF#16 = 0x77#16) = true := by decide

/-! ### The keyboard (M1, M2, M3, M4, M8), for either value of `KBSR_LOW_BITS` -/

/-- The reset state with characters to come and answers of `IO.Avail`. -/
def withInput (s : State) (input : List Byte) (avail : List Bool) : State :=
  { s with input := input, avail := avail }

/-- M1: the poll latches the character. -/
theorem test_poll_latches :
    let s := pollKeyboard (withInput State.reset [0x41#8] [true])
    s.input = [] ∧ s.record = [.availAnswer true, .readChar 0x41#8] ∧ s.avail = [] := by
  exact ⟨rfl, rfl, rfl⟩
/-- M2: no input, and nothing is consumed although a character is there. -/
theorem test_poll_finds_none :
    let s := pollKeyboard (withInput State.reset [0x41#8] [false])
    s.input = [0x41#8] ∧ s.record = [.availAnswer false] := by
  exact ⟨rfl, rfl⟩
/-- M3p, M3c, M4p, M4c: the status word. -/
theorem test_status_word :
    kbsrAfterPoll .preserve true 5#16 = 0x8005#16 ∧ kbsrAfterPoll .clear true 5#16 = 0x8000#16 ∧
    kbsrAfterPoll .preserve false 0x8005#16 = 5#16 ∧
    kbsrAfterPoll .clear false 0x8005#16 = 0#16 := by decide

/-! ### Trap services -/

/-- T3: zero-extension. -/
theorem test_getc_high_character :
    nextIs (step (withInput (at' 0x3000#16 0xF020#16) [0xFF#8] []))
      (fun t => t.reg 0 = 0xFF#16 ∧ t.reg 7 = 0x3001#16 ∧ t.cond = .p ∧ t.input = []) = true := by
  decide
/-- T18: with no input GETC waits, R7 written. -/
theorem test_getc_waits :
    nextIs (step (at' 0x3000#16 0xF020#16))
      (fun t => t.reg 7 = 0x3001#16 ∧ t.pending = some .getc ∧ t.cond = .z) = true := by decide
/-- T5: the high byte of R0 is ignored and the flags are unchanged. -/
theorem test_out_low_byte :
    nextIs (step (((at' 0x3000#16 0xF021#16).setReg 0 0x0121#16).setCond .n))
      (fun t => t.record = [.writeChar 0x21#8, .flush] ∧ t.cond = .n ∧ t.reg 7 = 0x3001#16) =
      true := by decide
/-- T7: a non-zero word with a zero low byte does not stop PUTS. -/
theorem test_puts :
    nextIs (step ((((at' 0x3000#16 0xF022#16).setReg 0 0x4000#16).poke 0x4000#16 0x4100#16).poke
        0x4001#16 0x0142#16))
      (fun t => t.record = [.writeChar 0#8, .writeChar 0x42#8, .flush] ∧ t.pending = none) =
      true := by decide
/-- T9: the scan wraps. -/
theorem test_puts_wraps :
    nextIs (step ((((at' 0x3000#16 0xF022#16).setReg 0 0xFFFF#16).poke 0xFFFF#16 0x58#16).poke
        0#16 0x59#16))
      (fun t => t.record = [.writeChar 0x58#8, .writeChar 0x59#8, .flush]) = true := by decide
/-- T10, for any prompt. -/
theorem test_in :
    nextIs (exec .inp (withInput State.reset [0x7A#8] []))
      (fun t => t.reg 0 = 0x7A#16 ∧ t.cond = .p ∧ t.input = []) = true := by decide
/-- T12: low byte first, always; the high byte if it is not zero. -/
theorem test_putsp :
    nextIs (step (((((at' 0x3000#16 0xF024#16).setReg 0 0x4000#16).poke 0x4000#16 0x4100#16).poke
        0x4001#16 0x0043#16).poke 0x4002#16 0x4544#16))
      (fun t => t.record = [.writeChar 0#8, .writeChar 0x41#8, .writeChar 0x43#8,
        .writeChar 0x44#8, .writeChar 0x45#8, .flush]) = true := by decide
/-- T13. -/
theorem test_halt :
    nextIs (step ((at' 0x3007#16 0xF025#16).setCond .n))
      (fun t => t.run = .halted ∧ t.reg 7 = 0x3008#16 ∧ t.pc = 0x3008#16 ∧ t.cond = .n) = true := by
  decide
/-- T17: R7 gets the wrapped pc. -/
theorem test_trap_other_wraps :
    nextIs (step ((at' 0xFFFF#16 0xF0FF#16).setReg 7 0x1234#16))
      (fun t => t.reg 7 = 0#16 ∧ t.pc = 0#16 ∧ t.cond = .z) = true := by decide
/-- R120: the generic row performs the vector's service. -/
theorem test_trap_generic :
    nextIs (exec (.trap 0x25#8) State.reset)
      (fun t => t.run = .halted ∧ t.reg 7 = 0x3000#16) = true := by decide
/-- X1. -/
theorem test_reserved8 :
    nextIs (step ((at' 0x3001#16 0x8000#16).setReg 0 1#16))
      (fun t => t.fault = some ⟨0x8000#16, 0x3001#16⟩ ∧ t.pc = 0x3002#16 ∧ t.reg 0 = 1#16 ∧
        t.run = .running) = true := by decide
/-- X4: pc wraps before the raise. -/
theorem test_reserved13_wraps :
    nextIs (step (at' 0xFFFF#16 0xDABC#16))
      (fun t => t.fault = some ⟨0xDABC#16, 0xFFFF#16⟩ ∧ t.pc = 0#16) = true := by decide

/-! ### Memory and images -/

/-- Writing what an unlisted address reads as removes the cell. -/
theorem test_write_unlisted_removes : ((State.reset.poke 5#16 1#16).poke 5#16 0#16).mem = [] := by
  decide
/-- Cells are listed by rising address. -/
theorem test_write_sorted :
    ((State.reset.poke 5#16 1#16).poke 3#16 2#16).mem = [(3, 2#16), (5, 1#16)] := by decide
/-- I1, I3, I4. -/
theorem test_load_image :
    loadImage [] [0x30#8, 0#8, 0x12#8, 0x34#8, 0x56#8, 0x78#8] =
      [(0x3000, 0x1234#16), (0x3001, 0x5678#16)] ∧
    loadImage [] [0x30#8, 0#8, 0x12#8, 0x34#8, 0x56#8] = [(0x3000, 0x1234#16)] ∧
    loadImage [] [0x30#8] = [] := by decide
/-- I5, I9. -/
theorem test_load_images_truncate_and_overwrite :
    loadImage [] [0xFF#8, 0xFF#8, 0xAA#8, 0xAA#8, 0xBB#8, 0xBB#8] = [(0xFFFF, 0xAAAA#16)] ∧
    loadImages [] [[0x30#8, 0#8, 0x12#8, 0x34#8, 0x56#8, 0x78#8],
      [0x30#8, 1#8, 0x9A#8, 0xBC#8]] = [(0x3000, 0x1234#16), (0x3001, 0x9ABC#16)] := by decide
/-- S1 and R7. -/
theorem test_extension_and_swap :
    sext 0x1F#5 = 0xFFFF#16 ∧ sext 0x0F#5 = 0x000F#16 ∧ byteSwap16 0x1234#16 = 0x3412#16 := by decide
/-- The reset state's memory has the canonical form. -/
theorem test_reset_memory_wf : State.reset.mem.wf := by decide
/-- The next step runs the word placed by the interface. -/
theorem test_withFetchWord :
    nextIs (step (State.reset.withFetchWord 16 0x5020)) (fun t => t.pc = 0x3001#16 ∧ t.cond = .z) =
      true := by decide

/-! ## Witnesses: the hypotheses of the statements can be met -/

theorem reset_inv : State.reset.Inv := by
  refine ⟨by decide, ?_, ?_, ?_, ?_⟩
  · intro r h; cases h
  · intro h; cases h
  · intro h; exact absurd rfl h
  · intro a h; rcases h with h | h <;> cases h

/-- StepKeepsInvariant. -/
theorem witness_StepKeepsInvariant : ∃ s t : State, s.Inv ∧ step s = .next t := ⟨_, _, reset_inv, rfl⟩
/-- StepRunsDecodedInstruction, FetchSeesPrecedingStore. -/
theorem witness_ready : State.reset.Ready ∧ State.reset.pc ≠ 0xFE00#16 :=
  ⟨⟨rfl, rfl, rfl⟩, by decide⟩
/-- DecodeOfEncode, its first hypothesis and both of its second clause. -/
theorem witness_DecodeOfEncode :
    (Instr.jmp 3).WellFormed = true ∧ (∀ b, Instr.jmp 3 ≠ .jmp b ∨ b ≠ 7) ∧
    ∀ v, Instr.jmp 3 ≠ .trap v :=
  ⟨rfl, fun b => by
    by_cases h : b = 7
    · subst h; exact .inl (by decide)
    · exact .inr h, nofun⟩
/-- DecodeReadsExactlyUsedBits: two words that agree in TRAP's used bits. -/
theorem witness_DecodeReadsExactlyUsedBits :
    0xFF25#16 &&& 0xF0FF#16 = 0xF025#16 &&& 0xF0FF#16 ∧ (0xFF25#16 : Word) ≠ 0xF025#16 := by decide
/-- NoStepAtTheEnds: both ends. -/
theorem witness_NoStepAtTheEnds :
    ((State.reset.setRun .halted).fault = none ∧ (State.reset.setRun .halted).run = .halted) ∧
    (raiseIllegalOpcode 0x8000#16 State.reset).fault = some ⟨0x8000#16, 0x2FFF#16⟩ :=
  ⟨⟨rfl, rfl⟩, by decide⟩
/-- NothingElseFaults. -/
theorem witness_NothingElseFaults :
    (∀ x, Instr.halt ≠ .reserved8 x) ∧ ∀ x, Instr.halt ≠ .reserved13 x :=
  ⟨nofun, nofun⟩
/-- FlagsChangeOnlyByUpdatingInstructions: an instruction that leaves the flags, one that sets them, and one
that sets them on a character that has arrived. -/
theorem witness_FlagsChange :
    (∃ t, exec .halt State.reset = .next t ∧ updatesFlags .halt = false) ∧
    (∃ t, exec (.not 1 2) State.reset = .next t ∧ updatesFlags (.not 1 2) = true ∧
      readsInput (.not 1 2) = false) ∧
    ∃ t, exec .getc (withInput State.reset [0x41#8] []) = .next t ∧ updatesFlags .getc = true ∧
      readsInput .getc = true ∧ (withInput State.reset [0x41#8] []).input ≠ [] :=
  ⟨⟨_, rfl, rfl⟩, ⟨_, rfl, rfl, rfl⟩, ⟨_, rfl, rfl, rfl, nofun⟩⟩
/-- RegistersWrittenOnlyAsTabled. -/
theorem witness_RegistersWritten :
    ∃ t, exec .getc State.reset = .next t ∧ (1 : Reg) ∉ registersWritten .getc :=
  ⟨_, rfl, by decide⟩
/-- PcChangedOnlyByControlTransfer. -/
theorem witness_PcChanged :
    ∃ t, exec .puts State.reset = .next t ∧ transfersControl .puts = false := ⟨_, rfl, rfl⟩
/-- MemoryChangedOnlyByStoresAndPolls: a store beside the address, with no poll and with one. -/
theorem witness_MemoryChanged :
    (∃ t, exec (.st 0 0#9) State.reset = .next t ∧
      storeAddress (.st 0 0#9) State.reset ≠ some 0x3001#16 ∧
      kbsrAddr ∉ memReads (.st 0 0#9) State.reset) ∧
    (∃ t, exec (.ld 0 0#9) (State.reset.setPc kbsrAddr) = .next t ∧
      storeAddress (.ld 0 0#9) (State.reset.setPc kbsrAddr) ≠ some 0#16 ∧
      kbsrAddr ∈ memReads (.ld 0 0#9) (State.reset.setPc kbsrAddr) ∧
      (0#16 : Word) ≠ kbsrAddr ∧ (0#16 : Word) ≠ kbdrAddr) :=
  ⟨⟨_, rfl, by decide, by decide⟩, ⟨_, rfl, by decide, by decide, by decide, by decide⟩⟩
/-- OutputOnlyByTrapServices: a step that adds output. -/
theorem witness_OutputOnly :
    nextIs (step (at' 0x3000#16 0xF021#16)) (fun t => t.record.any IoEvent.isOutput) = true := by
  decide
/-- OnlyTheHaltTrapHalts. -/
theorem witness_OnlyHalt :
    ∃ t, step (at' 0x3000#16 0xF025#16) = .next t ∧ t.run = .halted := ⟨_, rfl, rfl⟩
/-- EnvironmentDoesNotLeakIntoMachine: two states that differ in the environment alone. -/
theorem witness_EnvironmentDoesNotLeak :
    State.reset.SameMachine (withInput State.reset [0x41#8] [true]) ∧
    kbsrAddr ∉ memReads .out State.reset ∧ readsInput .out = false ∧
    (∃ t, exec .out State.reset = .next t) ∧
    ∃ t, exec .out (withInput State.reset [0x41#8] [true]) = .next t :=
  ⟨⟨rfl, rfl, rfl, rfl, rfl, rfl, rfl⟩, by decide, rfl, ⟨_, rfl⟩, ⟨_, rfl⟩⟩
/-- SignExtension: both bit values at the ends of the range of widths. -/
theorem witness_SignExtension :
    (1#1).getLsbD 0 = true ∧ (0#1).getLsbD 0 = false ∧ (0x8000#16).getLsbD 15 = true ∧
    (0x7FFF#16).getLsbD 15 = false := by decide
/-- LdiReadsBackSti: off9 = 1 and then 0, the pointer cell at 0x3001 holding 0x4000. -/
theorem witness_LdiReadsBackSti :
    let s := State.reset.poke 0x3001#16 0x4000#16
    s.pc + (1#9).signExtend 16 ≠ kbsrAddr ∧
    s.mem.read (s.pc + (1#9).signExtend 16) ≠ kbsrAddr ∧
    s.mem.read (s.pc + (1#9).signExtend 16) ≠ s.pc + (1#9).signExtend 16 ∧
    s.pc + 1#16 + (0#9).signExtend 16 = s.pc + (1#9).signExtend 16 := by decide
/-- BrBranches: taken on the flag after reset, and not taken. -/
theorem witness_BrBranches :
    (false = true ∧ State.reset.cond = .n ∨ true = true ∧ State.reset.cond = .z ∨
      false = true ∧ State.reset.cond = .p) ∧
    ¬ (true = true ∧ State.reset.cond = .n ∨ false = true ∧ State.reset.cond = .z ∨
      true = true ∧ State.reset.cond = .p) := by decide
/-- JsrrLinksThenReadsBase: both clauses. -/
theorem witness_JsrrLinks : (6 : Reg) ≠ 7 ∧ (7 : Reg) = 7 := by decide
/-- TrapLinksAndDispatches: the vectors beside the services' name none, and a service that is neither GETC,
IN nor HALT. -/
theorem witness_TrapLinks :
    (∀ v ∈ serviceVectors, 0x1F#8 ≠ v) ∧ (∀ v ∈ serviceVectors, 0x26#8 ≠ v) ∧
    canonical (.trap 0x1F#8) = .trapOther 0x1F#8 ∧ canonical (.trap 0x26#8) = .trapOther 0x26#8 ∧
    tvOut ≠ tvGetc ∧ tvOut ≠ tvIn ∧ tvOut ≠ tvHalt := by decide
/-- LoadImageStoresContentWords: an address below the origin, one loaded, one past the content, and the last
word of memory. -/
theorem witness_LoadImage :
    ¬ (0x3000#16).toNat ≤ (0x2FFF#16).toNat ∧ (0x3000#16).toNat ≤ (0x3000#16).toNat ∧
    [0x1234#16][(0x3001#16).toNat - (0x3000#16).toNat]? = none ∧
    [0xAAAA#16, 0xBBBB#16][(0xFFFF#16).toNat - (0xFFFF#16).toNat]? = some 0xAAAA#16 := by decide
/-- GetcReadsCharacter, InPromptsReadsAndEchoes. -/
theorem witness_input_arrived : (withInput State.reset [0x41#8] []).input = 0x41#8 :: [] := rfl
/-- BlockedReadWaits, BlockedReadResumes: for GETC and for IN. -/
theorem witness_blocked :
    (Instr.getc = .getc ∨ Instr.getc = .inp) ∧ (Instr.inp = .getc ∨ Instr.inp = .inp) ∧
    State.reset.input = [] ∧ State.reset.fault = none ∧ State.reset.run = .running :=
  ⟨.inl rfl, .inr rfl, rfl, rfl, rfl⟩
/-- PutsWritesString, PutspWritesPackedString: the empty string, and one of a single word that wraps. -/
theorem witness_strings :
    (State.reset.mem.read (State.reset.reg 0 + BitVec.ofNat 16 0) = 0#16) ∧
    (let s := (State.reset.setReg 0 0xFFFF#16).poke 0xFFFF#16 0x58#16
     s.mem.read (s.reg 0 + BitVec.ofNat 16 1) = 0#16 ∧
     ∀ k < 1, s.mem.read (s.reg 0 + BitVec.ofNat 16 k) ≠ 0#16) := by decide
/-- StringWithoutZeroNeverEnds, PackedStringWithoutZeroNeverEnds: every word 1. -/
theorem witness_no_zero_word :
    (State.resetWith (fun _ => 1#16) []).fault = none ∧
    (State.resetWith (fun _ => 1#16) []).run = .running ∧
    ∀ a, (State.resetWith (fun _ => 1#16) []).mem.read a ≠ 0#16 :=
  ⟨rfl, rfl, fun a => by
    rw [State.resetWith_mem, loadImages_nil, Memory.read_ofFunction]
    decide⟩
/-- ReservedWordRaisesIllegalOpcode: both opcode values. -/
theorem witness_ReservedWord :
    (at' 0x3000#16 0x8123#16).Ready ∧ (at' 0x3000#16 0xD123#16).Ready ∧
    (memRead 0x3000#16 (at' 0x3000#16 0x8123#16)).1.extractLsb' 12 4 = 8#4 ∧
    (memRead 0x3000#16 (at' 0x3000#16 0xD123#16)).1.extractLsb' 12 4 = 13#4 :=
  ⟨⟨rfl, rfl, rfl⟩, ⟨rfl, rfl, rfl⟩, by decide, by decide⟩
/-- ReservedRowsTakeTheException: pc wrapped to 0. -/
theorem witness_ReservedRows : (State.reset.setPc 0#16).pc = 0xFFFF#16 + 1#16 := by decide
/-- MemReadIsPlainButAtKbsr: KBDR's address is a plain one, and so are KBSR's neighbours. -/
theorem witness_MemReadIsPlain :
    (0xFE02#16 : Word) ≠ 0xFE00#16 ∧ (0xFE01#16 : Word) ≠ 0xFE00#16 ∧
    (0xFDFF#16 : Word) ≠ 0xFE00#16 := by decide
/-- KeyboardPoll: both answers of `IO.Avail`, and one of the two values of `KBSR_LOW_BITS` is the
machine's. -/
theorem witness_KeyboardPoll :
    (withInput State.reset [0x41#8] [true]).availAnswer = true ∧
    (withInput State.reset [0x41#8] [false]).availAnswer = false ∧
    (withInput State.reset [] [true]).availAnswer = false ∧
    (Config.kbsrLowBits = .preserve ∨ Config.kbsrLowBits = .clear) :=
  ⟨rfl, rfl, rfl, by cases Config.kbsrLowBits <;> simp⟩
/-- PollAgreesOnClearLowBits. -/
theorem witness_PollAgrees : State.reset.mem.read 0xFE00#16 &&& 0x7FFF#16 = 0#16 := by decide
/-- CanonicalMemoriesAgreeIfReadsAgree. -/
theorem witness_CanonicalMemories :
    Memory.wf [(3, 2#16), (5, 1#16)] ∧ ¬ Memory.wf [(5, 1#16), (3, 2#16)] ∧
    ¬ Memory.wf [(3, 0#16)] := by decide

end Sys2Proof.Tests
end

section
/-! PROOFS. Sign extension (spec/00_scope.md R6): `sext` by the field's top bit, and the signed value. -/

namespace Sys2Proof.Machine

theorem sext_of_msb_false {n : Nat} {v : BitVec n} (h : v.msb = false) : sext v = v.setWidth 16 :=
  BitVec.signExtend_eq_setWidth_of_msb_false h

/-- Bit by bit: below N both sides are the field's, from N to 15 both are 1. -/
theorem sext_of_msb_true {n : Nat} {v : BitVec n} (h : v.msb = true) :
    sext v = v.setWidth 16 ||| (0xFFFF#16 <<< n) := by
  have allOnes : 0xFFFF#16 = BitVec.allOnes 16 := by decide
  ext i hi
  rw [sext, allOnes, BitVec.getElem_signExtend, BitVec.getElem_or, BitVec.getElem_shiftLeft,
    BitVec.getElem_allOnes]
  by_cases below : i < n
  · simp [below]
  · simp [below, h]

theorem toInt_sext {n : Nat} {v : BitVec n} (h : n ≤ 16) : (sext v).toInt = v.toInt :=
  BitVec.toInt_signExtend_of_le h

/-- Settles O21: the bit R6 tests, bit N-1, is the field's `msb`. -/
theorem signExtension : Obligations.SignExtension := by
  refine ⟨fun n v _ width => ?_, by decide, by decide⟩
  rw [← BitVec.msb_eq_getLsbD_last]
  exact ⟨sext_of_msb_false, sext_of_msb_true, toInt_sext width⟩

end Sys2Proof.Machine
end

section
/-! PROOFS. Reset (spec/10_state.md R13, R15): loading images writes memory only, so every other field of
the machine after `State.resetWith` is that of `State.reset`. -/

namespace Sys2Proof.Machine

section
variable (memInit : Word → Word) (images : List (List Byte))

@[simp] theorem State.resetWith_pc : (State.resetWith memInit images).pc = State.reset.pc := rfl
@[simp] theorem State.resetWith_cond : (State.resetWith memInit images).cond = State.reset.cond := rfl
@[simp] theorem State.resetWith_run : (State.resetWith memInit images).run = State.reset.run := rfl
@[simp] theorem State.resetWith_reg (r : Reg) :
    (State.resetWith memInit images).reg r = State.reset.reg r := rfl
end

@[simp] theorem State.reset_reg (r : Reg) : State.reset.reg r = 0#16 :=
  Vector.getElem_replicate r.isLt

/-- Settles O1: the images reach memory only, and `State.reset` has the values of R13 and R15. -/
theorem resetRegisters : Obligations.ResetRegisters := by
  intro memInit images
  refine ⟨?pc, ?cond, fun r => ?reg, ?run⟩
  case pc => exact State.resetWith_pc memInit images
  case cond => exact State.resetWith_cond memInit images
  case reg => rw [State.resetWith_reg, State.reset_reg]
  case run => exact State.resetWith_run memInit images

end Sys2Proof.Machine
end

section
/-! PROOFS. `MemWrite` (spec/20_memory.md R32): what a write does to memory, and its frames. -/

namespace Sys2Proof.Machine

section
variable (a v : Word) (s : State)

theorem memWrite_read_self : (memWrite a v s).mem.read a = v :=
  Memory.read_write_self s.mem a v

theorem memWrite_read_ne {b : Word} (h : b ≠ a) : (memWrite a v s).mem.read b = s.mem.read b :=
  Memory.read_write_ne s.mem v h

theorem memWrite_sameRegs : s.SameRegsExcept (memWrite a v s) [] :=
  fun r _ => State.poke_reg s a v r

theorem memWrite_sameIo : s.SameIo (memWrite a v s) :=
  ⟨State.poke_input s a v, State.poke_avail s a v, State.poke_availCalls s a v,
    State.poke_record s a v⟩

theorem memWrite_sameControl : s.SameControl (memWrite a v s) :=
  ⟨State.poke_run s a v, State.poke_fault s a v, State.poke_pending s a v⟩

end

/-- Settles O58: no address is special to a write, so the laws of `Memory.write` and the frames of
`State.poke` give every part. -/
theorem memWriteIsAPlainStore : Obligations.MemWriteIsAPlainStore := by
  intro a v s
  refine ⟨?stored, fun b other => ?others, ?regs, ?cond, ?pc, ?io, ?control⟩
  case stored => exact memWrite_read_self a v s
  case others => exact memWrite_read_ne a v s other
  case regs => exact memWrite_sameRegs a v s
  case cond => exact State.poke_cond s a v
  case pc => exact State.poke_pc s a v
  case io => exact memWrite_sameIo a v s
  case control => exact memWrite_sameControl a v s

end Sys2Proof.Machine
end

section
/-! PROOFS. The flags (spec/40_cycle.md R72, R73): `setcc` gives R72's flag and writes COND only; an
instruction either ends in `writeFlagged` on the register it wrote or leaves COND, services included. -/

namespace Sys2Proof.Machine

theorem flagOf_classify (v : Word) : FlagOf v (classify v) := classify_table v

@[simp] theorem setcc_cond (i : Reg) (s : State) : (setcc i s).cond = classify (s.reg i) := rfl

/-- Settles O22: `setcc` is an update of COND to the class of the register's value. -/
theorem setccClassifies : Obligations.SetccClassifies := by
  intro i s
  refine ⟨?flag, ?frame⟩
  case flag =>
    rw [setcc_cond]
    exact flagOf_classify (s.reg i)
  case frame => rfl

theorem flagOf_writeFlagged (i : Reg) (v : Word) (s : State) :
    FlagOf ((writeFlagged i v s).reg i) (writeFlagged i v s).cond := by
  rw [writeFlagged_reg, if_pos rfl, writeFlagged_cond]
  exact flagOf_classify v

/-! ## The trap services -/

theorem serviceGetc_flagOf {s : State} (arrived : s.input ≠ []) :
    FlagOf ((serviceGetc s).reg 0) (serviceGetc s).cond := by
  rcases serviceGetc_cases s with ⟨empty, -⟩ | ⟨c, rest, -, done⟩
  · exact absurd empty arrived
  · rw [done]
    exact flagOf_writeFlagged ..

theorem finishIn_flagOf {s : State} (arrived : s.input ≠ []) :
    FlagOf ((finishIn s).reg 0) (finishIn s).cond := by
  rcases finishIn_cases s with ⟨empty, -⟩ | ⟨c, rest, -, done⟩
  · exact absurd empty arrived
  · rw [done]
    exact flagOf_writeFlagged ..

theorem dispatchTrap_flagOf {v : BitVec 8} {s : State} (reads : v = tvGetc ∨ v = tvIn)
    (arrived : s.input ≠ []) : FlagOf ((dispatchTrap v s).reg 0) (dispatchTrap v s).cond := by
  rcases reads with rfl | rfl
  · exact serviceGetc_flagOf arrived
  · exact finishIn_flagOf (s := promptIn s) arrived

theorem serviceString_cond (chars : Word → List Byte) (again : Service) (a : Word) (s : State) :
    (serviceString chars again a s).cond = s.cond := by
  obtain ⟨-, cond, -⟩ := serviceString_frame chars again a s
  exact cond

theorem dispatchTrap_cond {v : BitVec 8} (s : State) (notGetc : v ≠ tvGetc) (notIn : v ≠ tvIn) :
    (dispatchTrap v s).cond = s.cond := by
  rcases dispatchTrap_cases v s with
    ⟨getc, -⟩ | ⟨-, out⟩ | ⟨-, puts⟩ | ⟨inp, -⟩ | ⟨-, putsp⟩ | ⟨-, halt⟩ | ⟨-, other⟩
  · exact absurd getc notGetc
  · rw [out]; exact State.log_cond ..
  · rw [puts]; exact serviceString_cond ..
  · exact absurd inp notIn
  · rw [putsp]; exact serviceString_cond ..
  · rw [halt]; exact State.setRun_cond ..
  · rw [other]

/-! ## `exec` -/

theorem exec_cond_of_not_updatesFlags {i : Instr} {s t : State} (done : exec i s = .next t)
    (leaves : updatesFlags i = false) : t.cond = s.cond := by
  cases i with
  | addReg | addImm | andReg | andImm | not | ld | ldi | ldr | lea | getc | inp => cases leaves
  | br n z p off9 =>
    cases done
    split
    · exact State.setPc_cond ..
    · rfl
  | jmp | ret | jsr | jsrr => cases done; exact State.setPc_cond ..
  | st | str => cases done; exact State.poke_cond ..
  | sti => cases done; exact touch_cond ..
  | reserved8 | reserved13 => cases done; exact raiseIllegalOpcode_cond ..
  | trap v =>
    cases done
    obtain ⟨notGetc, notIn⟩ : v ≠ tvGetc ∧ v ≠ tvIn := by simpa [updatesFlags] using leaves
    exact dispatchTrap_cond (enterTrap s) notGetc notIn
  | out => cases done; exact State.log_cond ..
  | puts | putsp => cases done; exact serviceString_cond ..
  | halt => cases done; exact State.setRun_cond ..
  | trapOther => cases done; exact enterTrap_cond s

theorem exec_flagOf_of_updatesFlags {i : Instr} {s t : State} (done : exec i s = .next t)
    (updates : updatesFlags i = true) (arrived : readsInput i = true → s.input ≠ []) :
    FlagOf (t.reg ((registersWritten i).headD 0)) t.cond := by
  cases i with
  | br | jmp | ret | jsr | jsrr | st | sti | str | reserved8 | reserved13 | out | puts | putsp
  | halt | trapOther => cases updates
  | addReg | addImm | andReg | andImm | not | ld | ldi | ldr | lea =>
    cases done; exact flagOf_writeFlagged ..
  | trap v =>
    cases done
    have reads : v = tvGetc ∨ v = tvIn := by simpa [updatesFlags] using updates
    rw [registersWritten, if_pos reads]
    exact dispatchTrap_flagOf (s := enterTrap s) reads (arrived (by simpa [readsInput] using reads))
  | getc => cases done; exact serviceGetc_flagOf (arrived rfl)
  | inp => cases done; exact finishIn_flagOf (arrived rfl)

/-- Settles O14: `updatesFlags` divides the instructions into those that leave COND and those whose last
act is a flagged write. -/
theorem flagsChangeOnlyByUpdatingInstructions :
    Obligations.FlagsChangeOnlyByUpdatingInstructions :=
  fun _ _ _ done =>
    ⟨exec_cond_of_not_updatesFlags done, exec_flagOf_of_updatesFlags done⟩

end Sys2Proof.Machine
end

section
/-! PROOFS. Arithmetic and logic (spec/41_alu.md): each instruction is one flagged write, whose whole effect
and frame is said once; the words are read format by format, the ignored bits free (R55). -/

namespace Sys2Proof.Machine

open Sys2Proof.Laws

/-- The effect and the frame of a flagged write (R73). -/
theorem flaggedResult_writeFlagged (dr : Reg) (v : Word) (s : State) :
    FlaggedResult s (writeFlagged dr v s) dr v := by
  refine ⟨?result, ?flag, fun r other => ?regs, ?pc, fun a => ?mem, ?io, ?control⟩
  case result => rw [writeFlagged_reg, if_pos rfl]
  case flag =>
    rw [writeFlagged_cond]
    exact flagOf_classify v
  case regs => rw [writeFlagged_reg, if_neg (List.ne_of_not_mem_cons other)]
  case pc => exact writeFlagged_pc s dr v
  case mem => rw [writeFlagged_mem]
  case io =>
    exact ⟨writeFlagged_input s dr v, writeFlagged_avail s dr v, writeFlagged_availCalls s dr v,
      writeFlagged_record s dr v⟩
  case control =>
    exact ⟨writeFlagged_run s dr v, writeFlagged_fault s dr v, writeFlagged_pending s dr v⟩

/-! ## The words with ignored bits -/

section
variable (d a b : BitVec 3)

/-- Bits [4:3] are ignored. -/
theorem decodeWord_addReg (x : BitVec 2) :
    decodeWord (opcAdd ++ d ++ a ++ 0#1 ++ x ++ b) = .addReg (regOf d) (regOf a) (regOf b) := by
  obtain ⟨opcode, dr, sr1, bit5, sr2⟩ := fields_ar opcAdd d a b 0#1 x
  rw [decodeWord_add _ opcode, bit5, dr, sr1, sr2]
  rfl

/-- Bits [4:3] are ignored. -/
theorem decodeWord_andReg (x : BitVec 2) :
    decodeWord (opcAnd ++ d ++ a ++ 0#1 ++ x ++ b) = .andReg (regOf d) (regOf a) (regOf b) := by
  obtain ⟨opcode, dr, sr1, bit5, sr2⟩ := fields_ar opcAnd d a b 0#1 x
  rw [decodeWord_and _ opcode, bit5, dr, sr1, sr2]
  rfl

/-- Bits [5:0] are ignored. -/
theorem decodeWord_not_append (x : BitVec 6) :
    decodeWord (opcNot ++ d ++ a ++ x) = .not (regOf d) (regOf a) := by
  obtain ⟨opcode, dr, sr, -⟩ := fields_bo6 opcNot d a x
  rw [decodeWord_not _ opcode, dr, sr]

end

/-! ## The instructions -/

/-- Settles O23: the sum is an argument of the flagged write, so both sources are read before DR is
written. -/
theorem addRegister : Obligations.AddRegister :=
  ⟨decodeWord_addReg, fun dr _ _ s => ⟨_, rfl, flaggedResult_writeFlagged dr _ s⟩⟩

/-- Settles O24: the format has no ignored bits, so every word is the encoder's and the round trip
reads it. -/
theorem addImmediate : Obligations.AddImmediate :=
  ⟨fun d a imm5 => RoundTrip.addImm (regOf d) (regOf a) imm5 rfl,
    fun dr _ _ s => ⟨_, rfl, flaggedResult_writeFlagged dr _ s⟩⟩

/-- Settles O25: as for ADD, the sources are read before the flagged write. -/
theorem andRegister : Obligations.AndRegister :=
  ⟨decodeWord_andReg, fun dr _ _ s => ⟨_, rfl, flaggedResult_writeFlagged dr _ s⟩⟩

/-- Settles O26: as for ADD, every word of the format is the encoder's. -/
theorem andImmediate : Obligations.AndImmediate :=
  ⟨fun d a imm5 => RoundTrip.andImm (regOf d) (regOf a) imm5 rfl,
    fun dr _ _ s => ⟨_, rfl, flaggedResult_writeFlagged dr _ s⟩⟩

/-- Settles O27: subtracting from all ones complements every bit. -/
theorem notComplements : Obligations.NotComplements := by
  refine ⟨decodeWord_not_append, fun dr sr s => ⟨writeFlagged dr (~~~ s.reg sr) s, rfl, ?_⟩⟩
  have complement : 0xFFFF#16 - s.reg sr = ~~~ s.reg sr := BitVec.allOnes_sub_eq_not (s.reg sr)
  rw [complement]
  exact flaggedResult_writeFlagged dr _ s

end Sys2Proof.Machine
end

section
/-! PROOFS. Control transfer (spec/42_control.md): BR, JMP and RET write `pc` alone and JSR also its link;
each frame is built from the update it is made of. -/

namespace Sys2Proof.Machine

open Sys2Proof.Laws

/-! ## What an update leaves unchanged -/

theorem controlResult_refl (s : State) : ControlResult s s s.pc [] :=
  ⟨rfl, rfl, fun _ _ => rfl, fun _ => rfl, ⟨rfl, rfl, rfl, rfl⟩, rfl, rfl, rfl⟩

theorem controlResult_setReg (i : Reg) (v : Word) (s : State) :
    ControlResult s (s.setReg i v) s.pc [i] := by
  refine ⟨?pc, ?cond, fun r other => ?regs, fun a => ?mem, ?io, ?control⟩
  case pc => exact State.setReg_pc s i v
  case cond => exact State.setReg_cond s i v
  case regs => rw [State.reg_setReg, if_neg (List.ne_of_not_mem_cons other)]
  case mem => rw [State.setReg_mem]
  case io =>
    exact ⟨State.setReg_input s i v, State.setReg_avail s i v, State.setReg_availCalls s i v,
      State.setReg_record s i v⟩
  case control =>
    exact ⟨State.setReg_run s i v, State.setReg_fault s i v, State.setReg_pending s i v⟩

/-- A jump after other updates replaces the `pc` they left and keeps their frame. -/
theorem controlResult_setPc {s t : State} {pc : Word} {ds : List Reg}
    (before : ControlResult s t pc ds) (target : Word) :
    ControlResult s (t.setPc target) target ds := by
  obtain ⟨-, frame⟩ := before
  exact ⟨State.setPc_pc t target, frame⟩

/-! ## The branch test and the words of JMP -/

/-- R90's condition flag by flag. -/
theorem brTaken_iff (n z p : Bool) (c : Cond) :
    brTaken n z p c = true ↔ n = true ∧ c = .n ∨ z = true ∧ c = .z ∨ p = true ∧ c = .p := by
  cases c <;> simp [brTaken]

/-- Bits [11:9] and [5:0] are ignored; base register 7 makes the word RET's. -/
theorem decodeWord_jmp_append (x b : BitVec 3) (y : BitVec 6) :
    decodeWord (opcJmp ++ x ++ b ++ y) = if b = 7#3 then .ret else .jmp (regOf b) := by
  obtain ⟨opcode, -, base, -⟩ := fields_bo6 opcJmp x b y
  rw [decodeWord_jmp _ opcode, base]
  simp only [regOf_eq_seven]

/-! ## The instructions -/

/-- Settles O36: the format has no ignored bits, so the round trip reads every word; `execBr` sets `pc`
or leaves the state as it is, by the branch test. -/
theorem brBranches : Obligations.BrBranches := by
  refine ⟨fun n z p off9 => RoundTrip.br n z p off9 rfl,
    fun n z p off9 s => ⟨_, rfl, fun requested => ?taken, fun unrequested => ?notTaken⟩⟩
  case taken =>
    rw [if_pos ((brTaken_iff n z p s.cond).mpr requested)]
    exact controlResult_setPc (controlResult_refl s) _
  case notTaken =>
    rw [if_neg (mt (brTaken_iff n z p s.cond).mp unrequested)]
    exact controlResult_refl s

/-- Settles O38: both are one write of `pc`, with the value of the base register or of R7. -/
theorem jmpAndRetJump : Obligations.JmpAndRetJump :=
  ⟨decodeWord_jmp_append, fun s =>
    ⟨fun _ => ⟨_, rfl, controlResult_setPc (controlResult_refl s) _⟩,
      ⟨_, rfl, controlResult_setPc (controlResult_refl s) _⟩⟩⟩

/-- Settles O39: the link is a register write, after which the jump writes `pc` alone; the target is
relative to the `pc` that was saved. -/
theorem jsrLinksAndJumps : Obligations.JsrLinksAndJumps := by
  refine ⟨fun off11 => RoundTrip.jsr off11 rfl, fun off11 s => ⟨_, rfl, ?link, ?jump⟩⟩
  case link => rw [State.setPc_reg, State.reg_setReg, if_pos rfl]
  case jump => exact controlResult_setPc (controlResult_setReg 7 s.pc s) _

end Sys2Proof.Machine
end

section
/-! PROOFS. Loads, stores and addresses (spec/43_load_store.md): a load is a flagged write on the state its
`MemRead` leaves, and a store is one `MemWrite`, whose frame is `memWriteIsAPlainStore`; no format has
ignored bits, so the round trip of the encoder's words reads every word. -/

namespace Sys2Proof.Machine

open Sys2Proof.Laws

/-! ## What the shared operations of loads and stores change -/

/-- The effect and the frame of a load, against the state its read leaves (R100 to R102). -/
theorem flaggedResult_loadFlagged (dr : Reg) (a : Word) (s : State) :
    FlaggedResult (memRead a s).2 (loadFlagged dr a s) dr (memRead a s).1 :=
  flaggedResult_writeFlagged dr (memRead a s).1 (memRead a s).2

/-- A `MemRead` writes no register, whether it polls or not. -/
theorem memRead_sameRegs (a : Word) (s : State) : s.SameRegsExcept (memRead a s).2 [] :=
  fun r _ => touch_reg a s r

/-- Register frames with one list of exceptions compose. -/
theorem State.SameRegsExcept.trans {s t u : State} {ds : List Reg}
    (first : s.SameRegsExcept t ds) (second : t.SameRegsExcept u ds) : s.SameRegsExcept u ds :=
  fun r other => (second r other).trans (first r other)

/-! ## Loads -/

/-- Settles O28: LEA is a flagged write of the address on the state as it stands, with no read before
it. -/
theorem leaGivesAddress : Obligations.LeaGivesAddress :=
  ⟨fun d off9 => RoundTrip.lea (regOf d) off9 rfl,
    fun dr _ s => ⟨_, rfl, flaggedResult_writeFlagged dr _ s⟩⟩

/-- Settles O29: one read, which keeps registers and `pc`, then the flagged write. -/
theorem ldLoads : Obligations.LdLoads :=
  ⟨fun d off9 => RoundTrip.ld (regOf d) off9 rfl,
    fun dr _ s => ⟨memRead_sameRegs _ s, touch_pc _ s, _, rfl, flaggedResult_loadFlagged dr _ s⟩⟩

/-- Settles O30: the datum is read from the state the pointer's read leaves, and each of the two reads
keeps registers and `pc`. -/
theorem ldiLoads : Obligations.LdiLoads := by
  refine ⟨fun d off9 => RoundTrip.ldi (regOf d) off9 rfl,
    fun dr off9 s => ⟨?regs, ?pc, _, rfl, ?load⟩⟩
  case regs => exact (memRead_sameRegs _ s).trans (memRead_sameRegs _ _)
  case pc => exact (touch_pc _ _).trans (touch_pc _ s)
  case load => exact flaggedResult_loadFlagged dr _ _

/-- Settles O31: as for LD; the base is an argument of the read, so it is read before DR is written. -/
theorem ldrLoads : Obligations.LdrLoads :=
  ⟨fun d b off6 => RoundTrip.ldr (regOf d) (regOf b) off6 rfl,
    fun dr _ _ s => ⟨memRead_sameRegs _ s, touch_pc _ s, _, rfl, flaggedResult_loadFlagged dr _ s⟩⟩

/-! ## Stores -/

/-- Settles O32: ST is one `MemWrite`. -/
theorem stStores : Obligations.StStores :=
  ⟨fun r off9 => RoundTrip.st (regOf r) off9 rfl,
    fun sr _ s => ⟨_, rfl, memWriteIsAPlainStore _ (s.reg sr) s⟩⟩

/-- Settles O33: the pointer's read keeps registers, `pc` and flags, and the `MemWrite` is made on the
state it leaves. -/
theorem stiStores : Obligations.StiStores := by
  refine ⟨fun r off9 => RoundTrip.sti (regOf r) off9 rfl,
    fun sr off9 s => ⟨?regs, ?pc, ?cond, _, rfl, ?store⟩⟩
  case regs => exact memRead_sameRegs _ s
  case pc => exact touch_pc _ s
  case cond => exact touch_cond _ s
  case store => exact memWriteIsAPlainStore _ (s.reg sr) _

/-- Settles O34: STR is one `MemWrite`; base and SR are read before it. -/
theorem strStores : Obligations.StrStores :=
  ⟨fun r b off6 => RoundTrip.str (regOf r) (regOf b) off6 rfl,
    fun sr _ _ s => ⟨_, rfl, memWriteIsAPlainStore _ (s.reg sr) s⟩⟩

end Sys2Proof.Machine
end

section
/-! PROOFS. Trap services that only write (spec/44_trap.md): trap entry has the frame of `OutputResult` with
nothing written, and a write to the I/O capability on top of it only lengthens what was written. -/

namespace Sys2Proof.Machine

/-- Trap entry writes R7 and nothing else, so it outputs nothing (R120). -/
theorem outputResult_enterTrap (s : State) : OutputResult s (enterTrap s) [] := by
  refine ⟨?link, fun r other => ?regs, ?pc, ?cond, fun a => ?mem, ?input, ?avail, ?availCalls, ?record,
    ?run, ?fault⟩
  case link => rw [reg_enterTrap, if_pos rfl]
  case regs => rw [reg_enterTrap, if_neg (List.ne_of_not_mem_cons other)]
  case pc => exact enterTrap_pc s
  case cond => exact enterTrap_cond s
  case mem => rw [enterTrap_mem]
  case input => exact enterTrap_input s
  case avail => exact enterTrap_avail s
  case availCalls => exact enterTrap_availCalls s
  case record => rw [enterTrap_record, List.append_nil]
  case run => exact enterTrap_run s
  case fault => exact enterTrap_fault s

/-- Further output keeps the frame: it lengthens the record and touches nothing else (R24). -/
theorem outputResult_log {s t : State} {es : List IoEvent} (before : OutputResult s t es)
    (fs : List IoEvent) : OutputResult s (t.log fs) (es ++ fs) := by
  obtain ⟨link, regs, pc, cond, mem, input, avail, availCalls, record, control⟩ := before
  refine ⟨link, regs, pc, cond, mem, input, avail, availCalls, ?_, control⟩
  rw [State.log_record, record, List.append_assoc]

/-- Settles O47: OUT is one write to the record after trap entry; R0 is read after R7 was written, which
is another register. -/
theorem outWritesLowByte : Obligations.OutWritesLowByte := by
  intro s
  have operand : (enterTrap s).reg 0 = s.reg 0 := by rw [reg_enterTrap, if_neg (by decide)]
  refine ⟨serviceOut (enterTrap s), rfl, ?pending, ?output⟩
  case pending => exact (State.log_pending ..).trans (enterTrap_pending s)
  case output =>
    rw [serviceOut, operand]
    exact outputResult_log (outputResult_enterTrap s) _

end Sys2Proof.Machine
end

section
/-! PROOFS. Image loading (spec/70_reset_and_hazards.md R162, R163): an image file made of whole words holds
the bytes of word i at offsets 2i and 2i + 1, so what `loadWords_read` says of bytes is said of words. -/

namespace Sys2Proof.Machine

/-- The bytes of a list of words in the image file's order, the high byte first (R162). -/
def imageBytes (words : List Word) : List Byte := words.flatMap fun w => [highByte w, lowByte w]

@[simp] theorem imageBytes_cons (w : Word) (words : List Word) :
    imageBytes (w :: words) = highByte w :: lowByte w :: imageBytes words := rfl

@[simp] theorem wordOfBytes_highByte_lowByte (w : Word) :
    wordOfBytes (highByte w) (lowByte w) = w := by
  rw [wordOfBytes, highByte, lowByte,
    BitVec.extractLsb'_append_extractLsb'_eq_extractLsb' (by decide)]
  exact BitVec.extractLsb'_eq_self

theorem getElem?_imageBytes (words : List Word) (i : Nat) :
    (imageBytes words)[2 * i]? = words[i]?.map highByte ∧
    (imageBytes words)[2 * i + 1]? = words[i]?.map lowByte := by
  induction words generalizing i with
  | nil => exact ⟨rfl, rfl⟩
  | cons w words ih =>
    cases i with
    | zero => exact ⟨rfl, rfl⟩
    | succ i => exact ih i

/-- What loading whole words from addr leaves at an address: the word the list holds for it, else what
was there (R163). -/
theorem loadWords_imageBytes_read (m : Memory) (addr : Nat) (content : List Word) (a : Word) :
    (loadWords m addr (imageBytes content)).read a =
      if addr ≤ a.toNat then (content[a.toNat - addr]?).getD (m.read a) else m.read a := by
  obtain ⟨high, low⟩ := getElem?_imageBytes content (a.toNat - addr)
  rw [loadWords_read, high, low]
  by_cases covered : addr ≤ a.toNat
  · rw [if_pos covered, if_pos covered]
    cases content[a.toNat - addr]? with
    | none => rfl
    | some w => exact wordOfBytes_highByte_lowByte w
  · rw [if_neg covered, if_neg covered, Option.getD_none]

theorem loadImage_imageBytes (m : Memory) (origin : Word) (content : List Word) :
    loadImage m (imageBytes (origin :: content)) =
      loadWords m origin.toNat (imageBytes content) := by
  rw [imageBytes_cons, loadImage, wordOfBytes_highByte_lowByte]

/-- Settles O2: the image's first word is the origin, and the rest is loaded from it as words. -/
theorem loadImageStoresContentWords : Obligations.LoadImageStoresContentWords := by
  intro m origin content a
  change (loadImage m (imageBytes (origin :: content))).read a = _
  rw [loadImage_imageBytes, loadWords_imageBytes_read]

end Sys2Proof.Machine
end

section
/-! PROOFS. What `exec` does to the run state, the fault record and the service in progress, said once by
family of instruction: a TRAP runs its service, a reserved word raises, and no other instruction touches
any of the three. -/

namespace Sys2Proof.Machine

/-! ## The trap dispatcher's frame (R120) -/

theorem ServiceFrame.refl (s : State) : ServiceFrame s s :=
  ⟨rfl, rfl, rfl, rfl, fun _ _ => rfl⟩

theorem ServiceFrame.trans {s t u : State} (first : ServiceFrame s t) (second : ServiceFrame t u) :
    ServiceFrame s u where
  pc := second.pc.trans first.pc
  run := second.run.trans first.run
  fault := second.fault.trans first.fault
  mem := second.mem.trans first.mem
  regs r other := (second.regs r other).trans (first.regs r other)

theorem serviceOut_frame (s : State) : ServiceFrame s (serviceOut s) :=
  ⟨rfl, rfl, rfl, rfl, fun _ _ => rfl⟩

theorem promptIn_frame (s : State) : ServiceFrame s (promptIn s) :=
  ⟨rfl, rfl, rfl, rfl, fun _ _ => rfl⟩

/-- HALT is the one service that changes the run state, and it changes nothing else. -/
theorem dispatchTrap_halts_or_frame (v : BitVec 8) (s : State) :
    (v = tvHalt ∧ dispatchTrap v s = s.setRun .halted) ∨
      (v ≠ tvHalt ∧ ServiceFrame s (dispatchTrap v s)) := by
  rcases dispatchTrap_cases v s with
    ⟨rfl, getc⟩ | ⟨rfl, out⟩ | ⟨rfl, puts⟩ | ⟨rfl, inp⟩ | ⟨rfl, putsp⟩ | ⟨rfl, halt⟩ | ⟨none, other⟩
  · exact .inr ⟨by decide, getc ▸ serviceGetc_frame s⟩
  · exact .inr ⟨by decide, out ▸ serviceOut_frame s⟩
  · exact .inr ⟨by decide, puts ▸ (serviceString_frame ..).1⟩
  · exact .inr ⟨by decide, inp ▸ (promptIn_frame s).trans (finishIn_frame _)⟩
  · exact .inr ⟨by decide, putsp ▸ (serviceString_frame ..).1⟩
  · exact .inl ⟨rfl, halt⟩
  · refine .inr ⟨fun halt => none (halt ▸ by decide), ?_⟩
    rw [other]
    exact .refl s

section
variable {v : BitVec 8} (s : State)

theorem dispatchTrap_run (notHalt : v ≠ tvHalt) : (dispatchTrap v s).run = s.run := by
  rcases dispatchTrap_halts_or_frame v s with ⟨halt, -⟩ | ⟨-, frame⟩
  · exact absurd halt notHalt
  · exact frame.run

variable (v)

theorem dispatchTrap_pc : (dispatchTrap v s).pc = s.pc := by
  rcases dispatchTrap_halts_or_frame v s with ⟨-, halt⟩ | ⟨-, frame⟩
  · rw [halt, State.setRun_pc]
  · exact frame.pc

theorem dispatchTrap_fault : (dispatchTrap v s).fault = s.fault := by
  rcases dispatchTrap_halts_or_frame v s with ⟨-, halt⟩ | ⟨-, frame⟩
  · rw [halt, State.setRun_fault]
  · exact frame.fault

theorem dispatchTrap_mem : (dispatchTrap v s).mem = s.mem := by
  rcases dispatchTrap_halts_or_frame v s with ⟨-, halt⟩ | ⟨-, frame⟩
  · rw [halt, State.setRun_mem]
  · exact frame.mem

theorem dispatchTrap_reg {r : Reg} (other : r ≠ 0) : (dispatchTrap v s).reg r = s.reg r := by
  rcases dispatchTrap_halts_or_frame v s with ⟨-, halt⟩ | ⟨-, frame⟩
  · rw [halt, State.setRun_reg]
  · exact frame.regs r other

end

/-! ## `exec` by family -/

theorem State.SameControl.trans {s t u : State} (first : s.SameControl t)
    (second : t.SameControl u) : s.SameControl u := by
  obtain ⟨run, fault, pending⟩ := first
  obtain ⟨run', fault', pending'⟩ := second
  exact ⟨run'.trans run, fault'.trans fault, pending'.trans pending⟩

theorem touch_sameControl (a : Word) (s : State) : s.SameControl (touch a s) :=
  ⟨touch_run a s, touch_fault a s, touch_pending a s⟩

theorem loadFlagged_sameControl (dr : Reg) (a : Word) (s : State) :
    s.SameControl (loadFlagged dr a s) := touch_sameControl a s

theorem pointer_sameControl (off9 : BitVec 9) (s : State) : s.SameControl (pointer off9 s).2 :=
  touch_sameControl (pcRel9 off9 s) s

/-- LDI's next state by name (R101). -/
theorem exec_ldi_inv {dr : Reg} {off9 : BitVec 9} {s t : State}
    (done : exec (.ldi dr off9) s = .next t) :
    t = loadFlagged dr (pointer off9 s).1 (pointer off9 s).2 := by
  injection done with next
  exact next.symm

/-- A word of the reserved family (R58, R140). -/
def ReservedWord (w : Word) : Prop := w.extractLsb' 12 4 = 8#4 ∨ w.extractLsb' 12 4 = 13#4

/-- What an instruction can do to the run state, the fault record and the service in progress: leave them,
raise the exception with its own word, or run a service after trap entry. -/
theorem exec_cases {i : Instr} {s t : State} (done : exec i s = .next t) :
    s.SameControl t ∨
    (ReservedWord (encode i) ∧ ((∃ rest, i = .reserved8 rest) ∨ ∃ rest, i = .reserved13 rest) ∧
      t = raiseIllegalOpcode (encode i) s) ∨
    ∃ v, (i = .trap v ∨ i = canonical (.trap v)) ∧ t = dispatchTrap v (enterTrap s) := by
  cases i with
  | addReg | addImm | andReg | andImm | not | lea | jmp | ret | jsr | jsrr | st | str | trapOther =>
    cases done; exact .inl ⟨rfl, rfl, rfl⟩
  | br =>
    cases done
    left
    split
    · exact ⟨rfl, rfl, rfl⟩
    · exact ⟨rfl, rfl, rfl⟩
  | ld | ldr => cases done; exact .inl (loadFlagged_sameControl ..)
  | ldi =>
    rw [exec_ldi_inv done]
    exact .inl ((pointer_sameControl _ s).trans (loadFlagged_sameControl ..))
  | sti => cases done; exact .inl (pointer_sameControl _ s)
  | reserved8 rest =>
    cases done
    exact .inr (.inl ⟨.inl (fields_rest opcReserved8 rest).1, .inl ⟨rest, rfl⟩, rfl⟩)
  | reserved13 rest =>
    cases done
    exact .inr (.inl ⟨.inr (fields_rest opcReserved13 rest).1, .inr ⟨rest, rfl⟩, rfl⟩)
  | trap v => cases done; exact .inr (.inr ⟨v, .inl rfl, rfl⟩)
  | getc => cases done; exact .inr (.inr ⟨tvGetc, .inr rfl, rfl⟩)
  | out => cases done; exact .inr (.inr ⟨tvOut, .inr rfl, rfl⟩)
  | puts => cases done; exact .inr (.inr ⟨tvPuts, .inr rfl, rfl⟩)
  | inp => cases done; exact .inr (.inr ⟨tvIn, .inr rfl, rfl⟩)
  | putsp => cases done; exact .inr (.inr ⟨tvPutsp, .inr rfl, rfl⟩)
  | halt => cases done; exact .inr (.inr ⟨tvHalt, .inr rfl, rfl⟩)

/-- Every arm of `exec` answers a next state. -/
theorem exec_next (i : Instr) (s : State) : ∃ t, exec i s = .next t := by
  cases i <;> exact ⟨_, rfl⟩

/-- Settles O13: of the three families only the reserved one writes the fault record. -/
theorem nothingElseFaults : Obligations.NothingElseFaults := by
  intro i s
  obtain ⟨t, done⟩ := exec_next i s
  refine ⟨t, done, fun not8 not13 => ?_⟩
  rcases exec_cases done with ⟨-, fault, -⟩ | ⟨-, ⟨x, r8⟩ | ⟨x, r13⟩, -⟩ | ⟨v, -, trap⟩
  · exact fault
  · exact absurd r8 (not8 x)
  · exact absurd r13 (not13 x)
  · rw [trap, dispatchTrap_fault, enterTrap_fault]

end Sys2Proof.Machine
end

section
/-! PROOFS. The machine invariant (spec/40_cycle.md section 3): it holds of every Running, unfaulted state
with canonical memory whose pending service is linked and scans from R0; each family of instructions and
each service leads from such a state to such a state, to the exception, or to Halted. -/

namespace Sys2Proof.Machine

/-! ## Memory stays canonical -/

theorem loadFlagged_wf {s : State} (dr : Reg) (a : Word) (wf : s.mem.wf) :
    (loadFlagged dr a s).mem.wf := touch_wf a wf

theorem pointer_wf {s : State} (off9 : BitVec 9) (wf : s.mem.wf) : (pointer off9 s).2.mem.wf :=
  touch_wf (pcRel9 off9 s) wf

theorem exec_mem_wf {i : Instr} {s t : State} (done : exec i s = .next t) (wf : s.mem.wf) :
    t.mem.wf := by
  cases i with
  | addReg | addImm | andReg | andImm | not | lea | jmp | ret | jsr | jsrr | reserved8 | reserved13
  | trapOther => cases done; exact wf
  | br =>
    cases done
    split
    · exact wf
    · exact wf
  | ld | ldr => cases done; exact loadFlagged_wf _ _ wf
  | ldi => rw [exec_ldi_inv done]; exact loadFlagged_wf _ _ (pointer_wf _ wf)
  | st | str => cases done; exact Memory.wf_write wf _ _
  | sti => cases done; exact Memory.wf_write (pointer_wf _ wf) _ _
  | trap v => cases done; exact (dispatchTrap_mem v (enterTrap s)).symm ▸ wf
  | getc => cases done; exact (serviceGetc_frame (enterTrap s)).mem.symm ▸ wf
  | inp => cases done; exact (finishIn_frame (promptIn (enterTrap s))).mem.symm ▸ wf
  | out | halt => cases done; exact wf
  | puts | putsp => cases done; exact (serviceString_frame ..).1.mem.symm ▸ wf

/-! ## States that meet the invariant -/

theorem inv_of_running {s : State} (wf : s.mem.wf) (fault : s.fault = none) (run : s.run = .running)
    (linked : s.pending ≠ none → s.reg 7 = s.pc)
    (scan : ∀ a, s.pending = some (.puts a) ∨ s.pending = some (.putsp a) → a = s.reg 0) : s.Inv where
  mem_wf := wf
  fault_frozen _ recorded := absurd (fault.symm.trans recorded) nofun
  halted_clean halted := absurd (run.symm.trans halted) nofun
  pending_linked waiting := ⟨linked waiting, run⟩
  pending_scan := scan

/-- Without a scan in progress there is no address to go on at. -/
theorem scan_of_pending_none {s : State} (pending : s.pending = none) (a : Word)
    (scanning : s.pending = some (.puts a) ∨ s.pending = some (.putsp a)) : a = s.reg 0 := by
  rw [pending] at scanning
  rcases scanning with h | h
  · cases h
  · cases h

theorem inv_of_ready {s : State} (wf : s.mem.wf) (ready : s.Ready) : s.Inv := by
  obtain ⟨fault, run, pending⟩ := ready
  exact inv_of_running wf fault run (absurd pending) (scan_of_pending_none pending)

theorem inv_raiseIllegalOpcode {s : State} {w : Word} (wf : s.mem.wf) (ready : s.Ready)
    (reserved : ReservedWord w) : (raiseIllegalOpcode w s).Inv := by
  obtain ⟨-, run, pending⟩ := ready
  refine ⟨wf, ?frozen, fun halted => ?halted, absurd pending, scan_of_pending_none pending⟩
  case frozen =>
    rintro r ⟨⟩
    exact ⟨reserved, (BitVec.sub_add_cancel s.pc 1#16).symm, run, pending⟩
  case halted => exact absurd (run.symm.trans halted) nofun

theorem inv_serviceHalt {s : State} (wf : s.mem.wf) (ready : s.Ready) (linked : s.reg 7 = s.pc) :
    (serviceHalt s).Inv := by
  obtain ⟨fault, -, pending⟩ := ready
  exact ⟨wf, fun _ recorded => absurd (fault.symm.trans recorded) nofun,
    fun _ => ⟨linked, fault, pending⟩, absurd pending, scan_of_pending_none pending⟩

/-! ## The trap services -/

/-- A state in which a service runs: Running, unfaulted, linked, memory canonical. -/
structure Serving (s : State) : Prop where
  mem_wf : s.mem.wf
  fault : s.fault = none
  run : s.run = .running
  linked : s.reg 7 = s.pc

theorem Serving.frame {s t : State} (serving : Serving s) (frame : ServiceFrame s t) : Serving t where
  mem_wf := frame.mem.symm ▸ serving.mem_wf
  fault := frame.fault.trans serving.fault
  run := frame.run.trans serving.run
  linked := by rw [frame.regs 7 (by decide), frame.pc, serving.linked]

theorem Serving.inv {s : State} (serving : Serving s)
    (scan : ∀ a, s.pending = some (.puts a) ∨ s.pending = some (.putsp a) → a = s.reg 0) : s.Inv :=
  inv_of_running serving.mem_wf serving.fault serving.run (fun _ => serving.linked) scan

theorem Serving.inv_getc {s : State} (serving : Serving s) : (serviceGetc s).Inv := by
  refine (serving.frame (serviceGetc_frame s)).inv fun a scanning => ?_
  rcases serviceGetc_cases s with ⟨-, waits⟩ | ⟨c, rest, -, reads⟩
  · rw [waits] at scanning
    rcases scanning with h | h <;> cases h
  · rw [reads] at scanning ⊢
    exact scan_of_pending_none rfl a scanning

theorem Serving.inv_finishIn {s : State} (serving : Serving s) : (finishIn s).Inv := by
  refine (serving.frame (finishIn_frame s)).inv fun a scanning => ?_
  rcases finishIn_cases s with ⟨-, waits⟩ | ⟨c, rest, -, reads⟩
  · rw [waits] at scanning
    rcases scanning with h | h <;> cases h
  · rw [reads] at scanning ⊢
    exact scan_of_pending_none rfl a scanning

/-- A scan from the address R0 holds either completes or is left scanning from there. -/
theorem Serving.inv_string {s : State} (serving : Serving s) (chars : Word → List Byte)
    {again : Service} (scan : again = .puts (s.reg 0) ∨ again = .putsp (s.reg 0)) :
    (serviceString chars again (s.reg 0) s).Inv := by
  obtain ⟨frame, -⟩ := serviceString_frame chars again (s.reg 0) s
  refine (serving.frame frame).inv fun a scanning => ?_
  rcases serviceString_cases chars again (s.reg 0) s with ⟨cs, ends⟩ | ⟨cs, goesOn⟩
  · rw [ends] at scanning ⊢
    exact scan_of_pending_none rfl a scanning
  · rw [goesOn] at scanning ⊢
    rcases scan with rfl | rfl <;> rcases scanning with h | h <;> cases h <;> rfl

theorem inv_dispatchTrap {s : State} (serving : Serving s) (pending : s.pending = none)
    (v : BitVec 8) : (dispatchTrap v s).Inv := by
  have ready : s.Ready := ⟨serving.fault, serving.run, pending⟩
  rcases dispatchTrap_cases v s with
    ⟨-, getc⟩ | ⟨-, out⟩ | ⟨-, puts⟩ | ⟨-, inp⟩ | ⟨-, putsp⟩ | ⟨-, halt⟩ | ⟨-, other⟩
  · rw [getc]; exact serving.inv_getc
  · rw [out]; exact inv_of_ready (s := serviceOut s) serving.mem_wf ready
  · rw [puts]; exact serving.inv_string putsChars (.inl rfl)
  · rw [inp]; exact (serving.frame (promptIn_frame s)).inv_finishIn
  · rw [putsp]; exact serving.inv_string putspChars (.inr rfl)
  · rw [halt]; exact inv_serviceHalt serving.mem_wf ready serving.linked
  · rw [other]; exact inv_of_ready serving.mem_wf ready

theorem inv_resume {s : State} (inv : s.Inv) (fault : s.fault = none) {v : Service}
    (pending : s.pending = some v) : (resume v s).Inv := by
  obtain ⟨linked, run⟩ := inv.pending_linked (by rw [pending]; nofun)
  have serving : Serving s := ⟨inv.mem_wf, fault, run, linked⟩
  cases v with
  | getc => exact serving.inv_getc
  | inp => exact serving.inv_finishIn
  | puts a =>
    obtain rfl := inv.pending_scan a (.inl pending)
    exact serving.inv_string putsChars (.inl rfl)
  | putsp a =>
    obtain rfl := inv.pending_scan a (.inr pending)
    exact serving.inv_string putspChars (.inr rfl)

/-! ## One step -/

theorem exec_inv {i : Instr} {s t : State} (done : exec i s = .next t) (wf : s.mem.wf)
    (ready : s.Ready) : t.Inv := by
  have ⟨fault, run, pending⟩ := ready
  rcases exec_cases done with same | ⟨reserved, -, raised⟩ | ⟨v, -, trap⟩
  · obtain ⟨run', fault', pending'⟩ := same
    exact inv_of_ready (exec_mem_wf done wf)
      ⟨fault'.trans fault, run'.trans run, pending'.trans pending⟩
  · rw [raised]
    exact inv_raiseIllegalOpcode wf ready reserved
  · rw [trap]
    exact inv_dispatchTrap (s := enterTrap s) ⟨wf, fault, run, reg_enterTrap s 7⟩ pending v

/-- The fetch leaves a ready state ready (R70). -/
theorem afterFetch_ready {s : State} (ready : s.Ready) : (afterFetch s).Ready := by
  obtain ⟨fault, run, pending⟩ := ready
  exact ⟨(touch_fault ..).trans fault, (touch_run ..).trans run, (touch_pending ..).trans pending⟩

/-- Settles O5: a step goes on with the service in progress, or executes an instruction on the state the
fetch left, which is ready with canonical memory. -/
theorem stepKeepsInvariant : Obligations.StepKeepsInvariant := by
  intro s t inv stepped
  obtain ⟨fault, run, ⟨v, pending, rfl⟩ | ⟨pending, done⟩⟩ := step_cases stepped
  · exact inv_resume inv fault pending
  · exact exec_inv done (touch_wf _ inv.mem_wf) (afterFetch_ready ⟨fault, run, pending⟩)

end Sys2Proof.Machine
end

section
/-! PROOFS. The decoder (spec/30_encoding.md): decoding undoes encoding; and a word is the encoding of what
it decodes to in every bit its instruction uses, format by format, so that an instruction's bits can be
read off the word it was decoded from. -/

namespace Sys2Proof

open Sys2Proof.Laws

/-! ## Decoding an encoded instruction (R52, R56) -/

theorem decodeWord_encode {i : Instr} (wf : i.WellFormed = true) :
    decodeWord (encode i) = canonical i := by
  cases i with
  | br n z p off9 => exact RoundTrip.br n z p off9 wf
  | addReg dr sr1 sr2 => exact RoundTrip.addReg dr sr1 sr2 wf
  | addImm dr sr1 imm5 => exact RoundTrip.addImm dr sr1 imm5 wf
  | ld dr off9 => exact RoundTrip.ld dr off9 wf
  | st sr off9 => exact RoundTrip.st sr off9 wf
  | jsr off11 => exact RoundTrip.jsr off11 wf
  | jsrr base => exact RoundTrip.jsrr base wf
  | andReg dr sr1 sr2 => exact RoundTrip.andReg dr sr1 sr2 wf
  | andImm dr sr1 imm5 => exact RoundTrip.andImm dr sr1 imm5 wf
  | ldr dr base off6 => exact RoundTrip.ldr dr base off6 wf
  | str sr base off6 => exact RoundTrip.str sr base off6 wf
  | reserved8 rest => exact RoundTrip.reserved8 rest wf
  | not dr sr => exact RoundTrip.not dr sr wf
  | ldi dr off9 => exact RoundTrip.ldi dr off9 wf
  | sti sr off9 => exact RoundTrip.sti sr off9 wf
  | jmp base => exact RoundTrip.jmp base wf
  | ret => exact RoundTrip.ret wf
  | reserved13 rest => exact RoundTrip.reserved13 rest wf
  | lea dr off9 => exact RoundTrip.lea dr off9 wf
  | trap vect => exact RoundTrip.trap vect wf
  | getc => exact RoundTrip.getc wf
  | out => exact RoundTrip.out wf
  | puts => exact RoundTrip.puts wf
  | inp => exact RoundTrip.inp wf
  | putsp => exact RoundTrip.putsp wf
  | halt => exact RoundTrip.halt wf
  | trapOther vect => exact RoundTrip.trapOther vect wf

theorem canonical_eq_self {i : Instr} (notRet : ∀ b, i ≠ .jmp b ∨ b ≠ 7)
    (notTrap : ∀ v, i ≠ .trap v) : canonical i = i := by
  cases i with
  | jmp base =>
    have other : base ≠ 7 := (notRet base).resolve_left fun h => h rfl
    rw [canonical_jmp, if_neg other]
  | trap v => exact absurd rfl (notTrap v)
  | _ => rfl

/-- Settles O6: the round trip of every row, and the two rows whose words are another's. -/
theorem decodeOfEncode : Obligations.DecodeOfEncode :=
  fun _ wf => ⟨decodeWord_encode wf, canonical_eq_self⟩

/-- Settles O9: each word is a literal, so the decoder computes its row. -/
theorem decodeSampleWords : Obligations.DecodeSampleWords := by
  unfold Obligations.DecodeSampleWords
  decide

/-! ## A word as the fields of its format (R52) -/

section
variable (w : Word) {o : BitVec 4}

theorem field_append_field {s m n k : Nat} (adjacent : s = k + n) :
    w.extractLsb' s m ++ w.extractLsb' k n = w.extractLsb' k (m + n) :=
  BitVec.extractLsb'_append_extractLsb'_eq_extractLsb' adjacent

/-- A single bit as a field of width 1. -/
theorem ofBool_getLsbD (k : Nat) : BitVec.ofBool (w.getLsbD k) = w.extractLsb' k 1 := by
  ext i hi
  obtain rfl : i = 0 := by omega
  simp

/-- Format AR. -/
theorem append_fields_ar {f : Bool} (opcode : fieldOpcode w = o) (bit5 : w.getLsbD 5 = f) :
    o ++ regBits (fieldDr w) ++ regBits (fieldSr1 w) ++ BitVec.ofBool f ++
      w.extractLsb' 3 2 ++ regBits (fieldSr2 w) = w := by
  rw [← opcode, ← bit5]
  simp (disch := decide) only [fieldOpcode, fieldDr, fieldSr1, fieldSr2, regBits_regOf,
    ofBool_getLsbD, field_append_field]
  exact BitVec.extractLsb'_eq_self

/-- Format AI. -/
theorem append_fields_ai {f : Bool} (opcode : fieldOpcode w = o) (bit5 : w.getLsbD 5 = f) :
    o ++ regBits (fieldDr w) ++ regBits (fieldSr1 w) ++ BitVec.ofBool f ++
      fieldImm5 w = w := by
  rw [← opcode, ← bit5]
  simp (disch := decide) only [fieldOpcode, fieldDr, fieldSr1, fieldImm5, regBits_regOf,
    ofBool_getLsbD, field_append_field]
  exact BitVec.extractLsb'_eq_self

/-- Formats N and BO6. -/
theorem append_fields_bo6 (opcode : fieldOpcode w = o) :
    o ++ regBits (fieldDr w) ++ regBits (fieldSr1 w) ++ fieldOff6 w = w := by
  rw [← opcode]
  simp (disch := decide) only [fieldOpcode, fieldDr, fieldSr1, fieldOff6, regBits_regOf,
    field_append_field]
  exact BitVec.extractLsb'_eq_self

/-- Format PC9. -/
theorem append_fields_pc9 (opcode : fieldOpcode w = o) :
    o ++ regBits (fieldDr w) ++ fieldOff9 w = w := by
  rw [← opcode]
  simp (disch := decide) only [fieldOpcode, fieldDr, fieldOff9, regBits_regOf, field_append_field]
  exact BitVec.extractLsb'_eq_self

/-- Format BR. -/
theorem append_fields_br (opcode : fieldOpcode w = o) :
    o ++ BitVec.ofBool (w.getLsbD 11) ++ BitVec.ofBool (w.getLsbD 10) ++
      BitVec.ofBool (w.getLsbD 9) ++ fieldOff9 w = w := by
  rw [← opcode]
  simp (disch := decide) only [fieldOpcode, fieldOff9, ofBool_getLsbD, field_append_field]
  exact BitVec.extractLsb'_eq_self

/-- Format J11. -/
theorem append_fields_j11 {f : Bool} (opcode : fieldOpcode w = o) (bit11 : w.getLsbD 11 = f) :
    o ++ BitVec.ofBool f ++ fieldOff11 w = w := by
  rw [← opcode, ← bit11]
  simp (disch := decide) only [fieldOpcode, fieldOff11, ofBool_getLsbD, field_append_field]
  exact BitVec.extractLsb'_eq_self

/-- Format JR. -/
theorem append_fields_jr {f : Bool} (opcode : fieldOpcode w = o) (bit11 : w.getLsbD 11 = f) :
    o ++ BitVec.ofBool f ++ w.extractLsb' 9 2 ++ regBits (fieldSr1 w) ++
      w.extractLsb' 0 6 = w := by
  rw [← opcode, ← bit11]
  simp (disch := decide) only [fieldOpcode, fieldSr1, regBits_regOf, ofBool_getLsbD,
    field_append_field]
  exact BitVec.extractLsb'_eq_self

/-- Format T8. -/
theorem append_fields_t8 (opcode : fieldOpcode w = o) :
    o ++ w.extractLsb' 8 4 ++ fieldVect w = w := by
  rw [← opcode]
  simp (disch := decide) only [fieldOpcode, fieldVect, field_append_field]
  exact BitVec.extractLsb'_eq_self

/-- The reserved family. -/
theorem append_fields_rest (opcode : fieldOpcode w = o) : o ++ fieldRest w = w := by
  rw [← opcode, opcode_append_rest]

end

/-! ## The bits of a word an instruction uses (R55) -/

/-- Decoding reads the bits of a mask and no other: encoding gives them back, and a word that agrees in
them decodes alike. -/
def ReadsExactly (mask w : Word) : Prop :=
  encode (decodeWord w) &&& mask = w &&& mask ∧
    ∀ x : Word, x &&& mask = w &&& mask → decodeWord x = decodeWord w

/-- Words that agree in a mask agree in a field the mask covers. -/
theorem field_eq_of_masked {x w mask : Word} (agree : x &&& mask = w &&& mask) {s n : Nat}
    (covered : mask.extractLsb' s n = BitVec.allOnes n) : x.extractLsb' s n = w.extractLsb' s n := by
  have fields := congrArg (BitVec.extractLsb' s n) agree
  rwa [BitVec.extractLsb'_and, BitVec.extractLsb'_and, covered, BitVec.and_allOnes,
    BitVec.and_allOnes] at fields

theorem regField_eq_of_masked {x w mask : Word} (agree : x &&& mask = w &&& mask) {s : Nat}
    (covered : mask.extractLsb' s 3 = BitVec.allOnes 3) :
    regOf (x.extractLsb' s 3) = regOf (w.extractLsb' s 3) :=
  congrArg regOf (field_eq_of_masked agree covered)

theorem bit_eq_of_masked {x w mask : Word} (agree : x &&& mask = w &&& mask) {k : Nat}
    (covered : mask.getLsbD k = true) : x.getLsbD k = w.getLsbD k := by
  have bits := congrArg (BitVec.getLsbD · k) agree
  simpa [covered] using bits

theorem readsExactly_of_encode_eq {w : Word} (whole : encode (decodeWord w) = w) :
    ReadsExactly 0xFFFF#16 w := by
  have all : 0xFFFF#16 = BitVec.allOnes 16 := by decide
  refine ⟨by rw [whole], fun x agree => ?_⟩
  rw [all, BitVec.and_allOnes, BitVec.and_allOnes] at agree
  rw [agree]

/-! ### The rows with ignored bits -/

section
variable (o : BitVec 4) (d a b : BitVec 3)

theorem masked_ar (f : BitVec 1) (x : BitVec 2) :
    (o ++ d ++ a ++ f ++ x ++ b : Word) &&& 0xFFE7#16 = o ++ d ++ a ++ f ++ 0#2 ++ b := by
  have kept : (o ++ d ++ a ++ f ++ x ++ b) &&& (BitVec.allOnes 4 ++ BitVec.allOnes 3 ++
      BitVec.allOnes 3 ++ BitVec.allOnes 1 ++ 0#2 ++ BitVec.allOnes 3) =
      o ++ d ++ a ++ f ++ 0#2 ++ b := by
    simp only [BitVec.and_append, BitVec.and_allOnes, BitVec.and_zero]
  exact kept

theorem masked_not (x : BitVec 6) :
    (o ++ d ++ a ++ x : Word) &&& 0xFFC0#16 = o ++ d ++ a ++ 0#6 := by
  have kept : (o ++ d ++ a ++ x) &&&
      (BitVec.allOnes 4 ++ BitVec.allOnes 3 ++ BitVec.allOnes 3 ++ 0#6) = o ++ d ++ a ++ 0#6 := by
    simp only [BitVec.and_append, BitVec.and_allOnes, BitVec.and_zero]
  exact kept

theorem masked_jmp (x : BitVec 6) :
    (o ++ d ++ b ++ x : Word) &&& 0xF1C0#16 = o ++ 0#3 ++ b ++ 0#6 := by
  have kept : (o ++ d ++ b ++ x) &&&
      (BitVec.allOnes 4 ++ 0#3 ++ BitVec.allOnes 3 ++ 0#6) = o ++ 0#3 ++ b ++ 0#6 := by
    simp only [BitVec.and_append, BitVec.and_allOnes, BitVec.and_zero]
  exact kept

theorem masked_jr (f : BitVec 1) (x : BitVec 2) (y : BitVec 6) :
    (o ++ f ++ x ++ b ++ y : Word) &&& 0xF9C0#16 = o ++ f ++ 0#2 ++ b ++ 0#6 := by
  have kept : (o ++ f ++ x ++ b ++ y) &&&
      (BitVec.allOnes 4 ++ BitVec.allOnes 1 ++ 0#2 ++ BitVec.allOnes 3 ++ 0#6) =
      o ++ f ++ 0#2 ++ b ++ 0#6 := by
    simp only [BitVec.and_append, BitVec.and_allOnes, BitVec.and_zero]
  exact kept

theorem masked_t8 (x : BitVec 4) (v : BitVec 8) :
    (o ++ x ++ v : Word) &&& 0xF0FF#16 = o ++ 0#4 ++ v := by
  have kept : (o ++ x ++ v) &&& (BitVec.allOnes 4 ++ 0#4 ++ BitVec.allOnes 8) =
      o ++ 0#4 ++ v := by
    simp only [BitVec.and_append, BitVec.and_allOnes, BitVec.and_zero]
  exact kept

end

/-- ADD and AND, register form: bits [4:3] are ignored. -/
theorem readsExactly_ar {w : Word} {opc : BitVec 4} {row : Reg → Reg → Reg → Instr}
    (encodes : ∀ d a b, encode (row d a b) =
      opc ++ regBits d ++ regBits a ++ BitVec.ofBool false ++ 0#2 ++ regBits b)
    (decodes : ∀ x, fieldOpcode x = opc → x.getLsbD 5 = false →
      decodeWord x = row (fieldDr x) (fieldSr1 x) (fieldSr2 x))
    (opcode : fieldOpcode w = opc) (bit5 : w.getLsbD 5 = false) : ReadsExactly 0xFFE7#16 w := by
  refine ⟨?_, fun x agree => ?_⟩
  · rw [decodes w opcode bit5, encodes, masked_ar, ← masked_ar _ _ _ _ _ (w.extractLsb' 3 2),
      append_fields_ar w opcode bit5]
  · have opcode' : fieldOpcode x = fieldOpcode w := field_eq_of_masked agree (by decide)
    have bit5' : x.getLsbD 5 = w.getLsbD 5 := bit_eq_of_masked agree (by decide)
    have dr : fieldDr x = fieldDr w := regField_eq_of_masked agree (by decide)
    have sr1 : fieldSr1 x = fieldSr1 w := regField_eq_of_masked agree (by decide)
    have sr2 : fieldSr2 x = fieldSr2 w := regField_eq_of_masked agree (by decide)
    rw [decodes w opcode bit5, decodes x (opcode'.trans opcode) (bit5'.trans bit5), dr, sr1, sr2]

theorem readsExactly_addReg {w : Word} (opcode : fieldOpcode w = opcAdd)
    (bit5 : w.getLsbD 5 = false) : ReadsExactly 0xFFE7#16 w := by
  refine readsExactly_ar (row := .addReg) (fun _ _ _ => rfl) (fun x opc bit => ?_) opcode bit5
  rw [decodeWord_add x opc, bit]
  rfl

theorem readsExactly_andReg {w : Word} (opcode : fieldOpcode w = opcAnd)
    (bit5 : w.getLsbD 5 = false) : ReadsExactly 0xFFE7#16 w := by
  refine readsExactly_ar (row := .andReg) (fun _ _ _ => rfl) (fun x opc bit => ?_) opcode bit5
  rw [decodeWord_and x opc, bit]
  rfl

/-- NOT: bits [5:0] are ignored. -/
theorem readsExactly_not {w : Word} (opcode : fieldOpcode w = opcNot) :
    ReadsExactly 0xFFC0#16 w := by
  have encodes : encode (.not (fieldDr w) (fieldSr1 w)) =
      opcNot ++ regBits (fieldDr w) ++ regBits (fieldSr1 w) ++ 0b111111#6 := rfl
  refine ⟨?_, fun x agree => ?_⟩
  · rw [decodeWord_not w opcode, encodes, masked_not, ← masked_not _ _ _ (fieldOff6 w),
      append_fields_bo6 w opcode]
  · have opcode' : fieldOpcode x = fieldOpcode w := field_eq_of_masked agree (by decide)
    have dr : fieldDr x = fieldDr w := regField_eq_of_masked agree (by decide)
    have sr : fieldSr1 x = fieldSr1 w := regField_eq_of_masked agree (by decide)
    rw [decodeWord_not w opcode, decodeWord_not x (opcode'.trans opcode), dr, sr]

/-- JMP's format with the ignored bits zero, for RET's row too. -/
theorem encode_decodeWord_jmp {w : Word} (opcode : fieldOpcode w = opcJmp) :
    encode (decodeWord w) = opcJmp ++ 0#3 ++ regBits (fieldSr1 w) ++ 0#6 := by
  rw [decodeWord_jmp w opcode]
  by_cases seven : fieldSr1 w = 7
  · rw [if_pos seven, seven]
    rfl
  · rw [if_neg seven]
    rfl

/-- JMP and RET: bits [11:9] and [5:0] are ignored. -/
theorem readsExactly_jmp {w : Word} (opcode : fieldOpcode w = opcJmp) :
    ReadsExactly 0xF1C0#16 w := by
  refine ⟨?_, fun x agree => ?_⟩
  · rw [encode_decodeWord_jmp opcode, masked_jmp,
      ← masked_jmp _ (regBits (fieldDr w)) _ (fieldOff6 w),
      append_fields_bo6 w opcode]
  · have opcode' : fieldOpcode x = fieldOpcode w := field_eq_of_masked agree (by decide)
    have base : fieldSr1 x = fieldSr1 w := regField_eq_of_masked agree (by decide)
    rw [decodeWord_jmp w opcode, decodeWord_jmp x (opcode'.trans opcode), base]

/-- JSRR: bits [10:9] and [5:0] are ignored. -/
theorem readsExactly_jsrr {w : Word} (opcode : fieldOpcode w = opcJsr)
    (bit11 : w.getLsbD 11 = false) : ReadsExactly 0xF9C0#16 w := by
  have decodes : ∀ x, fieldOpcode x = opcJsr → x.getLsbD 11 = false →
      decodeWord x = .jsrr (fieldSr1 x) := fun x opc bit => by
    rw [decodeWord_jsr x opc, bit]
    rfl
  have encodes : encode (.jsrr (fieldSr1 w)) =
      opcJsr ++ BitVec.ofBool false ++ 0#2 ++ regBits (fieldSr1 w) ++ 0#6 := rfl
  refine ⟨?_, fun x agree => ?_⟩
  · rw [decodes w opcode bit11, encodes, masked_jr,
      ← masked_jr _ _ _ (w.extractLsb' 9 2) (w.extractLsb' 0 6),
      append_fields_jr w opcode bit11]
  · have opcode' : fieldOpcode x = fieldOpcode w := field_eq_of_masked agree (by decide)
    have bit11' : x.getLsbD 11 = w.getLsbD 11 := bit_eq_of_masked agree (by decide)
    have base : fieldSr1 x = fieldSr1 w := regField_eq_of_masked agree (by decide)
    rw [decodes w opcode bit11, decodes x (opcode'.trans opcode) (bit11'.trans bit11), base]

/-- Every trap row's word is its vector under TRAP's opcode. -/
theorem encode_decodeTrap (v : BitVec 8) : encode (decodeTrap v) = opcTrap ++ 0#4 ++ v := by
  unfold decodeTrap
  split_ifs with getc out puts inp putsp halt
  · rw [getc]; rfl
  · rw [out]; rfl
  · rw [puts]; rfl
  · rw [inp]; rfl
  · rw [putsp]; rfl
  · rw [halt]; rfl
  · rfl

/-- TRAP: bits [11:8] are ignored. -/
theorem readsExactly_trap {w : Word} (opcode : fieldOpcode w = opcTrap) :
    ReadsExactly 0xF0FF#16 w := by
  refine ⟨?_, fun x agree => ?_⟩
  · rw [decodeWord_trap w opcode, encode_decodeTrap, masked_t8,
      ← masked_t8 _ (w.extractLsb' 8 4), append_fields_t8 w opcode]
  · have opcode' : fieldOpcode x = fieldOpcode w := field_eq_of_masked agree (by decide)
    have vect : fieldVect x = fieldVect w := field_eq_of_masked agree (by decide)
    rw [decodeWord_trap w opcode, decodeWord_trap x (opcode'.trans opcode), vect]

/-! ### The rows without ignored bits -/

theorem opcode_cases (o : BitVec 4) :
    o = opcBr ∨ o = opcAdd ∨ o = opcLd ∨ o = opcSt ∨ o = opcJsr ∨ o = opcAnd ∨ o = opcLdr ∨
      o = opcStr ∨ o = opcReserved8 ∨ o = opcNot ∨ o = opcLdi ∨ o = opcSti ∨ o = opcJmp ∨
      o = opcReserved13 ∨ o = opcLea ∨ o = opcTrap := by
  revert o
  decide

theorem decodeWord_addImm_of_bit5 {w : Word} (opcode : fieldOpcode w = opcAdd)
    (bit5 : w.getLsbD 5 = true) :
    decodeWord w = .addImm (fieldDr w) (fieldSr1 w) (fieldImm5 w) := by
  rw [decodeWord_add w opcode, if_pos bit5]

theorem decodeWord_andImm_of_bit5 {w : Word} (opcode : fieldOpcode w = opcAnd)
    (bit5 : w.getLsbD 5 = true) :
    decodeWord w = .andImm (fieldDr w) (fieldSr1 w) (fieldImm5 w) := by
  rw [decodeWord_and w opcode, if_pos bit5]

theorem decodeWord_jsr_of_bit11 {w : Word} (opcode : fieldOpcode w = opcJsr)
    (bit11 : w.getLsbD 11 = true) : decodeWord w = .jsr (fieldOff11 w) := by
  rw [decodeWord_jsr w opcode, if_pos bit11]

theorem encode_of_whole {w : Word} {i : Instr} (row : decodeWord w = i) (whole : encode i = w) :
    encode (decodeWord w) = w := by rw [row, whole]

theorem encode_decodeWord {w : Word} (addImm : fieldOpcode w = opcAdd → w.getLsbD 5 = true)
    (andImm : fieldOpcode w = opcAnd → w.getLsbD 5 = true) (notNot : fieldOpcode w ≠ opcNot)
    (notJmp : fieldOpcode w ≠ opcJmp) (jsr : fieldOpcode w = opcJsr → w.getLsbD 11 = true)
    (notTrap : fieldOpcode w ≠ opcTrap) : encode (decodeWord w) = w := by
  rcases opcode_cases (fieldOpcode w) with
    h | h | h | h | h | h | h | h | h | h | h | h | h | h | h | h
  · exact encode_of_whole (decodeWord_br w h) (append_fields_br w h)
  · exact encode_of_whole (decodeWord_addImm_of_bit5 h (addImm h))
      (append_fields_ai (f := true) w h (addImm h))
  · exact encode_of_whole (decodeWord_ld w h) (append_fields_pc9 w h)
  · exact encode_of_whole (decodeWord_st w h) (append_fields_pc9 w h)
  · exact encode_of_whole (decodeWord_jsr_of_bit11 h (jsr h))
      (append_fields_j11 (f := true) w h (jsr h))
  · exact encode_of_whole (decodeWord_andImm_of_bit5 h (andImm h))
      (append_fields_ai (f := true) w h (andImm h))
  · exact encode_of_whole (decodeWord_ldr w h) (append_fields_bo6 w h)
  · exact encode_of_whole (decodeWord_str w h) (append_fields_bo6 w h)
  · exact encode_of_whole (decodeWord_reserved8 w h) (append_fields_rest w h)
  · exact absurd h notNot
  · exact encode_of_whole (decodeWord_ldi w h) (append_fields_pc9 w h)
  · exact encode_of_whole (decodeWord_sti w h) (append_fields_pc9 w h)
  · exact absurd h notJmp
  · exact encode_of_whole (decodeWord_reserved13 w h) (append_fields_rest w h)
  · exact encode_of_whole (decodeWord_lea w h) (append_fields_pc9 w h)
  · exact absurd h notTrap

/-- Settles O7: the mask selects the row with ignored bits the word is of, or no such row. -/
theorem decodeReadsExactlyUsedBits : Obligations.DecodeReadsExactlyUsedBits := by
  intro w used
  change ReadsExactly used w
  have opcode : ∀ o, (w.extractLsb' 12 4).toNat = o.toNat → fieldOpcode w = o :=
    fun o h => BitVec.eq_of_toNat_eq h
  unfold used
  split
  case h_1 h bit5 => exact readsExactly_addReg (opcode opcAdd h) bit5
  case h_2 h bit5 => exact readsExactly_andReg (opcode opcAnd h) bit5
  case h_3 h => exact readsExactly_not (opcode opcNot h)
  case h_4 h => exact readsExactly_jmp (opcode opcJmp h)
  case h_5 h bit11 => exact readsExactly_jsrr (opcode opcJsr h) bit11
  case h_6 h => exact readsExactly_trap (opcode opcTrap h)
  case h_7 notNot notJmp notTrap notAddReg notAndReg notJsrr =>
    have number : ∀ {o}, fieldOpcode w = o → (w.extractLsb' 12 4).toNat = o.toNat :=
      fun h => congrArg BitVec.toNat h
    refine readsExactly_of_encode_eq (encode_decodeWord (fun h => ?_) (fun h => ?_) (fun h => ?_)
      (fun h => ?_) (fun h => ?_) fun h => ?_)
    · exact Bool.eq_true_of_not_eq_false (notAddReg (number h))
    · exact Bool.eq_true_of_not_eq_false (notAndReg (number h))
    · exact notNot (number h)
    · exact notJmp (number h)
    · exact Bool.eq_true_of_not_eq_false (notJsrr (number h))
    · exact notTrap (number h)

/-! ## The opcode of a word and of the instruction it decodes to -/

/-- Every mask of used bits has the opcode's. -/
theorem fieldOpcode_encode_decodeWord (w : Word) :
    fieldOpcode (encode (decodeWord w)) = fieldOpcode w := by
  obtain ⟨agree, -⟩ := decodeReadsExactlyUsedBits w
  refine field_eq_of_masked agree ?_
  split <;> decide

theorem fieldOpcode_of_decodeWord {w : Word} {i : Instr} (row : decodeWord w = i) :
    fieldOpcode w = fieldOpcode (encode i) := by
  rw [← row, fieldOpcode_encode_decodeWord]

/-- Settles O8: the opcode gives the row, and the row's own word gives the opcode back. -/
theorem reservedWords : Obligations.ReservedWords := by
  intro w
  refine ⟨⟨fun h => ⟨_, decodeWord_reserved8 w h⟩, ?_⟩,
    ⟨fun h => ⟨_, decodeWord_reserved13 w h⟩, ?_⟩⟩
  · rintro ⟨rest, row⟩
    exact (fieldOpcode_of_decodeWord row).trans (fields_rest opcReserved8 rest).1
  · rintro ⟨rest, row⟩
    exact (fieldOpcode_of_decodeWord row).trans (fields_rest opcReserved13 rest).1

end Sys2Proof
end

section
/-! PROOFS. Rows that share words (log entry 24): the row the decoder answers executes as the instruction
encoded, so a TRAP word can be followed by its vector; HALT's is the only one that halts. -/

namespace Sys2Proof.Machine

/-- Decoder and dispatcher split the vectors alike (R57, R120). -/
theorem exec_decodeTrap (v : BitVec 8) (s : State) : exec (decodeTrap v) s = exec (.trap v) s := by
  rcases dispatchTrap_cases v (enterTrap s) with
    ⟨rfl, -⟩ | ⟨rfl, -⟩ | ⟨rfl, -⟩ | ⟨rfl, -⟩ | ⟨rfl, -⟩ | ⟨rfl, -⟩ | ⟨unnamed, nothing⟩
  · rfl
  · rfl
  · rfl
  · rfl
  · rfl
  · rfl
  · rw [decodeTrap_of_not_service unnamed, exec, exec, execTrap, nothing, execTrapOther]

/-- Settles O10: JMP's base 7 is the register RET reads, and TRAP performs its vector's service. -/
theorem canonicalSpellingMeansTheSame : Obligations.CanonicalSpellingMeansTheSame := by
  intro i s
  cases i with
  | jmp base =>
    by_cases seven : base = 7
    · subst seven
      rfl
    · rw [canonical_jmp, if_neg seven]
  | trap v => exact exec_decodeTrap v s
  | _ => rfl

/-! ## Halting (R16, R134) -/

/-- A TRAP that halts is HALT's. -/
theorem eq_tvHalt_of_halted {v : BitVec 8} {s t : State} (done : exec (.trap v) s = .next t)
    (running : s.run = .running) (halted : t.run = .halted) : v = tvHalt := by
  cases done
  by_contra notHalt
  have kept : (dispatchTrap v (enterTrap s)).run = .running :=
    (dispatchTrap_run _ notHalt).trans running
  exact absurd (kept.symm.trans halted) nofun

/-- An instruction that halts is of TRAP's opcode. -/
theorem fieldOpcode_encode_of_halted {i : Instr} {s t : State} (done : exec i s = .next t)
    (running : s.run = .running) (halted : t.run = .halted) : fieldOpcode (encode i) = opcTrap := by
  rcases exec_cases done with ⟨run, -⟩ | ⟨-, -, raised⟩ | ⟨v, rfl | rfl, -⟩
  · exact absurd ((run.trans running).symm.trans halted) nofun
  · rw [raised, raiseIllegalOpcode_run] at halted
    exact absurd (running.symm.trans halted) nofun
  · exact (fields_t8 opcTrap 0#4 v).1
  · rw [canonical_trap, encode_decodeTrap]
    exact (fields_t8 opcTrap 0#4 v).1

/-- Settles O19: no service changes the run state when it is taken up again, so a halted state comes from
a TRAP word, and its vector is HALT's. -/
theorem onlyTheHaltTrapHalts : Obligations.OnlyTheHaltTrapHalts := by
  intro s t stepped halted
  obtain ⟨-, run, ⟨v, pending, rfl⟩ | ⟨pending, done⟩⟩ := step_cases stepped
  · have running : (resume v s).run = .running := (resume_frame v s).run.trans run
    exact absurd (running.symm.trans halted) nofun
  · have running : (afterFetch s).run = .running := (touch_run s.pc s).trans run
    have opcode : fieldOpcode (fetchWord s) = opcTrap :=
      (fieldOpcode_encode_decodeWord _).symm.trans (fieldOpcode_encode_of_halted done running halted)
    rw [decodeWord_trap _ opcode, exec_decodeTrap] at done
    exact ⟨pending, opcode, eq_tvHalt_of_halted done running halted⟩

end Sys2Proof.Machine
end

section
/-! PROOFS. The frames of the instructions (spec/10_state.md R11, R12; spec/20_memory.md section 7): which
registers, whether pc, and which words of memory an instruction may change, instruction by instruction. -/

namespace Sys2Proof.Machine

/-! ## What shared operations leave unchanged -/

theorem loadFlagged_reg_of_ne {dr r : Reg} (other : r ≠ dr) (a : Word) (s : State) :
    (loadFlagged dr a s).reg r = s.reg r := by
  rw [loadFlagged, writeFlagged_reg, if_neg other, memRead_snd, touch_reg]

theorem loadFlagged_pc (dr : Reg) (a : Word) (s : State) : (loadFlagged dr a s).pc = s.pc :=
  touch_pc a s

theorem loadFlagged_mem (dr : Reg) (a : Word) (s : State) :
    (loadFlagged dr a s).mem = (touch a s).mem := rfl

section
variable (off9 : BitVec 9) (s : State)

theorem pointer_reg (r : Reg) : (pointer off9 s).2.reg r = s.reg r := touch_reg (pcRel9 off9 s) s r

theorem pointer_pc : (pointer off9 s).2.pc = s.pc := touch_pc (pcRel9 off9 s) s

theorem pointer_mem : (pointer off9 s).2.mem = (touch (pcRel9 off9 s) s).mem := rfl

end

/-- A TRAP that is neither GETC nor IN takes nothing from the environment and writes no register. -/
theorem dispatchTrap_reads_nothing {v : BitVec 8} (s : State) (notGetc : v ≠ tvGetc)
    (notIn : v ≠ tvIn) :
    (dispatchTrap v s).reg 0 = s.reg 0 ∧ (dispatchTrap v s).input = s.input := by
  rcases dispatchTrap_cases v s with
    ⟨getc, -⟩ | ⟨-, out⟩ | ⟨-, puts⟩ | ⟨inp, -⟩ | ⟨-, putsp⟩ | ⟨-, halt⟩ | ⟨-, other⟩
  · exact absurd getc notGetc
  · rw [out]; exact ⟨rfl, rfl⟩
  · obtain ⟨-, -, reg0, input, -⟩ := serviceString_frame putsChars (.puts (s.reg 0)) (s.reg 0) s
    rw [puts]; exact ⟨reg0, input⟩
  · exact absurd inp notIn
  · obtain ⟨-, -, reg0, input, -⟩ := serviceString_frame putspChars (.putsp (s.reg 0)) (s.reg 0) s
    rw [putsp]; exact ⟨reg0, input⟩
  · rw [halt]; exact ⟨rfl, rfl⟩
  · rw [other]; exact ⟨rfl, rfl⟩

/-! ## Registers (the table under R11) -/

theorem seven_mem_registersWritten_trap (v : BitVec 8) : 7 ∈ registersWritten (.trap v) := by
  rw [registersWritten]
  split
  · decide
  · decide

theorem zero_mem_registersWritten_trap {v : BitVec 8} (reads : v = tvGetc ∨ v = tvIn) :
    0 ∈ registersWritten (.trap v) := by
  rw [registersWritten, if_pos reads]
  decide

/-- TRAP's row: R7, and R0 where the service reads a character. -/
theorem trap_reg_of_not_mem {v : BitVec 8} {r : Reg} (s : State)
    (other : r ∉ registersWritten (.trap v)) : (dispatchTrap v (enterTrap s)).reg r = s.reg r := by
  have not7 : r ≠ 7 := fun seven => other (seven ▸ seven_mem_registersWritten_trap v)
  have kept : (dispatchTrap v (enterTrap s)).reg r = (enterTrap s).reg r := by
    by_cases zero : r = 0
    · subst zero
      obtain ⟨notGetc, notIn⟩ := not_or.mp fun reads => other (zero_mem_registersWritten_trap reads)
      exact (dispatchTrap_reads_nothing _ notGetc notIn).1
    · exact dispatchTrap_reg v _ zero
  rw [kept, reg_enterTrap, if_neg not7]

/-- Settles O15: each row's own write is of a tabled register; a `MemRead` writes none. -/
theorem registersWrittenOnlyAsTabled : Obligations.RegistersWrittenOnlyAsTabled := by
  intro i s t r done other
  cases i with
  | addReg | addImm | andReg | andImm | not | lea =>
    cases done
    exact (writeFlagged_reg ..).trans (if_neg (List.ne_of_not_mem_cons other))
  | ld | ldr => cases done; exact loadFlagged_reg_of_ne (List.ne_of_not_mem_cons other) _ s
  | ldi =>
    rw [exec_ldi_inv done]
    exact (loadFlagged_reg_of_ne (List.ne_of_not_mem_cons other) _ _).trans (pointer_reg _ s r)
  | sti => cases done; exact pointer_reg _ s r
  | br =>
    cases done
    split
    · rfl
    · rfl
  | st | str | jmp | ret | reserved8 | reserved13 => cases done; rfl
  | jsr | jsrr | trapOther =>
    cases done
    exact (State.reg_setReg s 7 r s.pc).trans (if_neg (List.ne_of_not_mem_cons other))
  | trap v => cases done; exact trap_reg_of_not_mem s other
  | getc => cases done; exact trap_reg_of_not_mem (v := tvGetc) s other
  | out => cases done; exact trap_reg_of_not_mem (v := tvOut) s other
  | puts => cases done; exact trap_reg_of_not_mem (v := tvPuts) s other
  | inp => cases done; exact trap_reg_of_not_mem (v := tvIn) s other
  | putsp => cases done; exact trap_reg_of_not_mem (v := tvPutsp) s other
  | halt => cases done; exact trap_reg_of_not_mem (v := tvHalt) s other

/-! ## The program counter (the table under R12) -/

/-- Settles O16: no operation but `setPc` writes pc, and only the control transfers use it. -/
theorem pcChangedOnlyByControlTransfer : Obligations.PcChangedOnlyByControlTransfer := by
  intro i s t done keeps
  cases i with
  | br | jmp | ret | jsr | jsrr => cases keeps
  | addReg | addImm | andReg | andImm | not | lea => cases done; exact writeFlagged_pc ..
  | ld | ldr => cases done; exact loadFlagged_pc _ _ s
  | ldi => rw [exec_ldi_inv done]; exact (loadFlagged_pc _ _ _).trans (pointer_pc _ s)
  | sti => cases done; exact pointer_pc _ s
  | st | str => cases done; exact State.poke_pc ..
  | reserved8 | reserved13 => cases done; exact raiseIllegalOpcode_pc ..
  | trapOther => cases done; exact enterTrap_pc s
  | trap v => cases done; exact dispatchTrap_pc v (enterTrap s)
  | getc => cases done; exact dispatchTrap_pc tvGetc (enterTrap s)
  | out => cases done; exact dispatchTrap_pc tvOut (enterTrap s)
  | puts => cases done; exact dispatchTrap_pc tvPuts (enterTrap s)
  | inp => cases done; exact dispatchTrap_pc tvIn (enterTrap s)
  | putsp => cases done; exact dispatchTrap_pc tvPutsp (enterTrap s)
  | halt => cases done; exact dispatchTrap_pc tvHalt (enterTrap s)

/-! ## Memory (20_memory.md section 7) -/

/-- A `MemRead` of b keeps the word at a, unless it polls and a is a device register (R30, R31). -/
theorem touch_read_of_unpolled {a b : Word} (s : State)
    (unpolled : kbsrAddr ≠ b ∨ (a ≠ kbsrAddr ∧ a ≠ kbdrAddr)) :
    (touch b s).mem.read a = s.mem.read a := by
  rcases unpolled with plain | ⟨notKbsr, notKbdr⟩
  · rw [touch_of_ne s plain.symm]
  · exact touch_read b s notKbsr notKbdr

/-- Settles O17: memory is written by the stores' one `MemWrite` and by the polls of `MemRead`, and by
nothing else. -/
theorem memoryChangedOnlyByStoresAndPolls : Obligations.MemoryChangedOnlyByStoresAndPolls := by
  intro i s t a done notStored unpolled
  cases i with
  | addReg | addImm | andReg | andImm | not | lea | jmp | ret | jsr | jsrr | reserved8 | reserved13
  | trapOther => cases done; rfl
  | br =>
    cases done
    split
    · rfl
    · rfl
  | ld | ldr =>
    cases done
    rw [loadFlagged_mem]
    exact touch_read_of_unpolled s (unpolled.imp_left List.ne_of_not_mem_cons)
  | ldi =>
    rw [exec_ldi_inv done, loadFlagged_mem, touch_read_of_unpolled, pointer_mem]
    · exact touch_read_of_unpolled s (unpolled.imp_left List.ne_of_not_mem_cons)
    · exact unpolled.imp_left fun h => List.ne_of_not_mem_cons (List.not_mem_of_not_mem_cons h)
  | st | str =>
    cases done
    exact memWrite_read_ne _ _ s fun same => notStored (congrArg some same.symm)
  | sti =>
    cases done
    rw [memWrite_read_ne _ _ _ fun same => notStored (congrArg some same.symm), pointer_mem]
    exact touch_read_of_unpolled s (unpolled.imp_left List.ne_of_not_mem_cons)
  | trap v => cases done; rw [dispatchTrap_mem, enterTrap_mem]
  | getc => cases done; rw [(serviceGetc_frame _).mem, enterTrap_mem]
  | inp => cases done; rw [(finishIn_frame _).mem, (promptIn_frame _).mem, enterTrap_mem]
  | out | halt => cases done; rfl
  | puts | putsp => cases done; exact congrArg (Memory.read · a) (serviceString_frame ..).1.mem

end Sys2Proof.Machine
end

section
/-! PROOFS. The environment's record (spec/60_exceptions.md R148): every operation appends to it, and only
the output services append output. -/

namespace Sys2Proof.Machine

/-- The record of t continues that of s, with output only where `output` holds. -/
def RecordGrows (output : Prop) (s t : State) : Prop :=
  ∃ es, t.record = s.record ++ es ∧ ((∃ e ∈ es, e.isOutput = true) → output)

namespace RecordGrows

variable {output : Prop} {s t u : State}

theorem of_eq (same : t.record = s.record) : RecordGrows output s t :=
  ⟨[], by rw [same, List.append_nil], fun ⟨_, e, _⟩ => absurd e List.not_mem_nil⟩

/-- Where output is allowed, any continuation will do. -/
theorem of_append {es : List IoEvent} (grown : t.record = s.record ++ es) (allowed : output) :
    RecordGrows output s t := ⟨es, grown, fun _ => allowed⟩

theorem trans (first : RecordGrows output s t) (second : RecordGrows output t u) :
    RecordGrows output s u := by
  obtain ⟨es, grown, only⟩ := first
  obtain ⟨fs, grown', only'⟩ := second
  refine ⟨es ++ fs, by rw [grown', grown, List.append_assoc], ?_⟩
  rintro ⟨e, e_mem, isOutput⟩
  rcases List.mem_append.mp e_mem with h | h
  · exact only ⟨e, h, isOutput⟩
  · exact only' ⟨e, h, isOutput⟩

theorem imp {output' : Prop} (grows : RecordGrows output s t) (h : output → output') :
    RecordGrows output' s t := by
  obtain ⟨es, grown, only⟩ := grows
  exact ⟨es, grown, fun e => h (only e)⟩

end RecordGrows

/-! ## `MemRead` -/

theorem touch_recordGrows (output : Prop) (a : Word) (s : State) :
    RecordGrows output s (touch a s) := by
  by_cases kbsr : a = kbsrAddr
  · subst kbsr
    rw [touch_kbsr]
    obtain ⟨es, grown, kinds⟩ := pollKeyboard_record s
    refine ⟨es, grown, ?_⟩
    rintro ⟨e, e_mem, isOutput⟩
    rcases kinds e e_mem with ⟨b, rfl⟩ | ⟨c, rfl⟩ <;> cases isOutput
  · rw [touch_of_ne s kbsr]
    exact .of_eq rfl

theorem loadFlagged_recordGrows (output : Prop) (dr : Reg) (a : Word) (s : State) :
    RecordGrows output s (loadFlagged dr a s) := touch_recordGrows output a s

theorem pointer_recordGrows (output : Prop) (off9 : BitVec 9) (s : State) :
    RecordGrows output s (pointer off9 s).2 := touch_recordGrows output (pcRel9 off9 s) s

/-! ## The trap services -/

/-- GETC reads without echo (R122). -/
theorem serviceGetc_recordGrows (output : Prop) (s : State) :
    RecordGrows output s (serviceGetc s) := by
  rcases serviceGetc_cases s with ⟨-, waits⟩ | ⟨c, rest, -, reads⟩
  · rw [waits]
    exact .of_eq rfl
  · rw [reads]
    refine ⟨[.readChar c], rfl, ?_⟩
    rintro ⟨e, e_mem, isOutput⟩
    rw [List.mem_singleton.mp e_mem] at isOutput
    cases isOutput

theorem finishIn_recordGrows {output : Prop} (allowed : output) (s : State) :
    RecordGrows output s (finishIn s) := by
  rcases finishIn_cases s with ⟨-, waits⟩ | ⟨c, rest, -, reads⟩
  · rw [waits]
    exact .of_eq rfl
  · rw [reads]
    exact .of_append (List.append_assoc ..) allowed

theorem serviceString_recordGrows {output : Prop} (allowed : output) (chars : Word → List Byte)
    (again : Service) (a : Word) (s : State) :
    RecordGrows output s (serviceString chars again a s) := by
  rcases serviceString_cases chars again a s with ⟨cs, h⟩ | ⟨cs, h⟩
  · rw [h]
    exact .of_append rfl allowed
  · rw [h]
    exact .of_append rfl allowed

theorem resume_recordGrows (v : Service) (s : State) : RecordGrows (v ≠ .getc) s (resume v s) := by
  cases v with
  | getc => exact serviceGetc_recordGrows _ s
  | inp => exact finishIn_recordGrows nofun s
  | puts a => exact serviceString_recordGrows nofun ..
  | putsp a => exact serviceString_recordGrows nofun ..

theorem dispatchTrap_recordGrows (v : BitVec 8) (s : State) :
    RecordGrows (writesOutput (.trap v) = true) s (dispatchTrap v s) := by
  rcases dispatchTrap_cases v s with
    ⟨-, h⟩ | ⟨rfl, h⟩ | ⟨rfl, h⟩ | ⟨rfl, h⟩ | ⟨rfl, h⟩ | ⟨-, h⟩ | ⟨-, h⟩ <;> rw [h]
  · exact serviceGetc_recordGrows _ s
  · exact .of_append rfl (by decide)
  · exact serviceString_recordGrows (by decide) ..
  · have prompted : RecordGrows (writesOutput (.trap tvIn) = true) s (promptIn s) :=
      .of_append rfl (by decide)
    exact prompted.trans (finishIn_recordGrows (by decide) _)
  · exact serviceString_recordGrows (by decide) ..
  · exact .of_eq rfl
  · exact .of_eq rfl

/-! ## One step -/

theorem exec_recordGrows {i : Instr} {s t : State} (done : exec i s = .next t) :
    RecordGrows (writesOutput i = true) s t := by
  cases i with
  | addReg | addImm | andReg | andImm | not | lea | jmp | ret | jsr | jsrr | st | str | reserved8
  | reserved13 | trapOther => cases done; exact .of_eq rfl
  | br =>
    cases done
    split
    · exact .of_eq rfl
    · exact .of_eq rfl
  | ld | ldr => cases done; exact loadFlagged_recordGrows ..
  | ldi =>
    rw [exec_ldi_inv done]
    exact (pointer_recordGrows _ _ s).trans (loadFlagged_recordGrows ..)
  | sti => cases done; exact pointer_recordGrows _ _ s
  | trap v => cases done; exact dispatchTrap_recordGrows v (enterTrap s)
  | getc => cases done; exact dispatchTrap_recordGrows tvGetc (enterTrap s)
  | out => cases done; exact dispatchTrap_recordGrows tvOut (enterTrap s)
  | puts => cases done; exact dispatchTrap_recordGrows tvPuts (enterTrap s)
  | inp => cases done; exact dispatchTrap_recordGrows tvIn (enterTrap s)
  | putsp => cases done; exact dispatchTrap_recordGrows tvPutsp (enterTrap s)
  | halt => cases done; exact dispatchTrap_recordGrows tvHalt (enterTrap s)

/-- Settles O18: the fetch adds no output, an instruction adds it only as its row says, and of the
services in progress GETC adds none. -/
theorem outputOnlyByTrapServices : Obligations.OutputOnlyByTrapServices := by
  intro s t stepped
  obtain ⟨-, -, ⟨v, pending, rfl⟩ | ⟨pending, done⟩⟩ := step_cases stepped
  · refine (resume_recordGrows v s).imp fun notGetc => .inl ⟨?_, ?_⟩
    · rw [pending]
      exact Option.some_ne_none v
    · rw [pending]
      exact fun h => notGetc (Option.some.inj h)
  · have fetched : RecordGrows (writesOutput (decodeWord (fetchWord s)) = true) s (afterFetch s) :=
      touch_recordGrows _ s.pc s
    exact (fetched.trans (exec_recordGrows done)).imp fun writes => .inr ⟨pending, writes⟩

end Sys2Proof.Machine
end

section
/-! PROOFS. Noninterference (spec/10_state.md section 7): a state that differs from s only in what belongs
to the environment is s with another environment, and an instruction that neither polls nor reads input
carries that form through. -/

namespace Sys2Proof.Machine

/-- s with another environment. -/
def State.withEnvironment (s : State) (input : List Byte) (avail : List Bool) (availCalls : Nat)
    (record : List IoEvent) : State :=
  { s with input := input, avail := avail, availCalls := availCalls, record := record }

theorem sameMachine_ite (c : Prop) [Decidable c] {s s' u u' : State} (yes : s.SameMachine u)
    (no : s'.SameMachine u') : (if c then s else s').SameMachine (if c then u else u') := by
  split
  · exact yes
  · exact no

theorem sameMachine_iff (s u : State) :
    s.SameMachine u ↔
      ∃ input avail availCalls record, u = s.withEnvironment input avail availCalls record := by
  constructor
  · rintro ⟨regs, pc, cond, run, fault, mem, pending⟩
    refine ⟨u.input, u.avail, u.availCalls, u.record, ?_⟩
    cases u
    simp_all [State.withEnvironment]
  · rintro ⟨input, avail, availCalls, record, rfl⟩
    exact ⟨rfl, rfl, rfl, rfl, rfl, rfl, rfl⟩

section
variable (s : State) (input : List Byte) (avail : List Bool) (availCalls : Nat)
  (record : List IoEvent)

/-- A scan looks at memory only. -/
theorem serviceString_withEnvironment (chars : Word → List Byte) (again : Service) (a : Word) :
    (serviceString chars again a s).SameMachine
      (serviceString chars again a (s.withEnvironment input avail availCalls record)) := by
  have sameMem : (s.withEnvironment input avail availCalls record).mem = s.mem := rfl
  unfold serviceString
  rw [sameMem]
  split
  · exact ⟨rfl, rfl, rfl, rfl, rfl, rfl, rfl⟩
  · exact ⟨rfl, rfl, rfl, rfl, rfl, rfl, rfl⟩

theorem dispatchTrap_withEnvironment {v : BitVec 8} (notGetc : v ≠ tvGetc) (notIn : v ≠ tvIn) :
    (dispatchTrap v s).SameMachine
      (dispatchTrap v (s.withEnvironment input avail availCalls record)) := by
  unfold dispatchTrap
  rw [if_neg notGetc, if_neg notGetc, if_neg notIn, if_neg notIn]
  split_ifs
  · exact ⟨rfl, rfl, rfl, rfl, rfl, rfl, rfl⟩
  · exact serviceString_withEnvironment ..
  · exact serviceString_withEnvironment ..
  · exact ⟨rfl, rfl, rfl, rfl, rfl, rfl, rfl⟩
  · exact ⟨rfl, rfl, rfl, rfl, rfl, rfl, rfl⟩

/-- A load that does not poll reads memory only. -/
theorem loadFlagged_withEnvironment (dr : Reg) {a : Word} (plain : kbsrAddr ≠ a) :
    (loadFlagged dr a s).SameMachine
      (loadFlagged dr a (s.withEnvironment input avail availCalls record)) := by
  unfold loadFlagged memRead fetched
  rw [touch_of_ne _ plain.symm, touch_of_ne _ plain.symm]
  exact ⟨rfl, rfl, rfl, rfl, rfl, rfl, rfl⟩

theorem pointer_of_unpolled {s : State} {off9 : BitVec 9} (plain : kbsrAddr ≠ pcRel9 off9 s) :
    pointer off9 s = (s.mem.read (pcRel9 off9 s), s) := by
  unfold pointer memRead fetched
  rw [touch_of_ne _ plain.symm]

theorem exec_withEnvironment {i : Instr} {s s' u' : State} (unpolled : kbsrAddr ∉ memReads i s)
    (noInput : readsInput i = false) (done : exec i s = .next s')
    (done' : exec i (s.withEnvironment input avail availCalls record) = .next u') :
    s'.SameMachine u' := by
  cases i with
  | addReg | addImm | andReg | andImm | not | lea | jmp | ret | jsr | jsrr | st | str | reserved8
  | reserved13 | out | halt | trapOther =>
    cases done; cases done'; exact ⟨rfl, rfl, rfl, rfl, rfl, rfl, rfl⟩
  | br =>
    cases done; cases done'
    exact sameMachine_ite _ ⟨rfl, rfl, rfl, rfl, rfl, rfl, rfl⟩ ⟨rfl, rfl, rfl, rfl, rfl, rfl, rfl⟩
  | ld | ldr =>
    cases done; cases done'
    exact loadFlagged_withEnvironment s _ _ _ _ _ (List.ne_of_not_mem_cons unpolled)
  | ldi dr off9 =>
    have plain : kbsrAddr ≠ pcRel9 off9 s := List.ne_of_not_mem_cons unpolled
    have plain' : kbsrAddr ≠ (pointer off9 s).1 :=
      List.ne_of_not_mem_cons (List.not_mem_of_not_mem_cons unpolled)
    rw [pointer_of_unpolled plain] at plain'
    rw [exec_ldi_inv done, exec_ldi_inv done', pointer_of_unpolled plain,
      pointer_of_unpolled (s := s.withEnvironment input avail availCalls record) plain]
    exact loadFlagged_withEnvironment s _ _ _ _ dr plain'
  | sti sr off9 =>
    have plain : kbsrAddr ≠ pcRel9 off9 s := List.ne_of_not_mem_cons unpolled
    cases done; cases done'
    rw [pointer_of_unpolled plain,
      pointer_of_unpolled (s := s.withEnvironment input avail availCalls record) plain]
    exact ⟨rfl, rfl, rfl, rfl, rfl, rfl, rfl⟩
  | trap v =>
    cases done; cases done'
    obtain ⟨notGetc, notIn⟩ : v ≠ tvGetc ∧ v ≠ tvIn := by simpa [readsInput] using noInput
    exact dispatchTrap_withEnvironment (enterTrap s) _ _ _ _ notGetc notIn
  | puts | putsp => cases done; cases done'; exact serviceString_withEnvironment (enterTrap s) ..
  | getc | inp => cases noInput

end

/-- Settles O20: the second run is the first with another environment. -/
theorem environmentDoesNotLeakIntoMachine : Obligations.EnvironmentDoesNotLeakIntoMachine := by
  intro i s u s' u' same unpolled noInput done done'
  obtain ⟨input, avail, availCalls, record, rfl⟩ := (sameMachine_iff s u).mp same
  exact exec_withEnvironment input avail availCalls record unpolled noInput done done'

end Sys2Proof.Machine
end

section
/-! PROOFS. Reset and the form of memory (spec/10_state.md sections 6 and 8; spec/70_reset_and_hazards.md
section 2): canonical memories are determined by their reads; loading puts what `imageWord` says. -/

namespace Sys2Proof.Machine

/-! ## Canonical memories -/

/-- The cells of a canonical memory are its words that do not read as unlisted. -/
theorem mem_iff_read {m : Memory} (wf : m.wf) (c : Cell) :
    c ∈ m ↔ c.1 < 65536 ∧ c.2 ≠ unlisted ∧ m.read (BitVec.ofNat 16 c.1) = c.2 := by
  constructor
  · intro listed
    obtain ⟨inRange, kept⟩ := wf.2 c listed
    exact ⟨inRange, kept, Memory.read_of_mem wf listed⟩
  · rintro ⟨inRange, kept, reads⟩
    have found : findCell m c.1 = c.2 := by
      rwa [Memory.read, BitVec.toNat_ofNat, Nat.mod_eq_of_lt inRange] at reads
    have listed := mem_of_findCell_ne (found.symm ▸ kept)
    rwa [found] at listed

/-- Settles O60: equal reads give the same cells, and two rising lists with the same cells are equal. -/
theorem canonicalMemoriesAgreeIfReadsAgree : Obligations.CanonicalMemoriesAgreeIfReadsAgree := by
  intro m m' wf wf' reads
  have irrefl : Std.Irrefl fun c d : Cell => c.1 < d.1 := ⟨fun c => Nat.lt_irrefl c.1⟩
  refine wf.1.eq_of_mem_iff wf'.1 fun c => ?_
  rw [mem_iff_read wf, mem_iff_read wf', reads]

/-! ## Reset -/

/-- Settles O4: reset is a ready state with canonical memory; no word of 0 is listed. -/
theorem resetMeetsInvariant : Obligations.ResetMeetsInvariant := by
  refine ⟨fun memInit images => ?inv, ?reset⟩
  case inv =>
    exact inv_of_ready (loadImages_wf (Memory.ofFunction_wf memInit) images) ⟨rfl, rfl, rfl⟩
  case reset =>
    have nothing : Memory.ofFunction (fun _ => 0#16) = [] :=
      canonicalMemoriesAgreeIfReadsAgree _ _ (Memory.ofFunction_wf _) Memory.wf_nil fun a =>
        Memory.read_ofFunction _ a
    rw [State.resetWith, loadImages_nil, nothing]
    rfl

/-! ## Loading (R162 to R164) -/

theorem loadImage_read (m : Memory) (image : List Byte) (a : Word) :
    (loadImage m image).read a = (imageWord image a).getD (m.read a) := by
  match image with
  | [] => rfl
  | [_] => rfl
  | hi :: lo :: content => exact loadWords_read content m _ a

/-- A later image over an earlier (R164). -/
theorem loadImages_read (images : List (List Byte)) (m : Memory) (a : Word) :
    (loadImages m images).read a =
      (images.reverse.findSome? fun image => imageWord image a).getD (m.read a) := by
  induction images generalizing m with
  | nil => rfl
  | cons image rest ih =>
    rw [loadImages_cons, ih, loadImage_read, List.reverse_cons, List.findSome?_append]
    cases rest.reverse.findSome? fun image => imageWord image a with
    | some v => rfl
    | none => simp

/-- Settles O3: each image overwrites what it covers, in order, and images reach memory only. -/
theorem resetEstablishesBootState : Obligations.ResetEstablishesBootState := by
  refine fun memInit images => ⟨fun a => ?_, rfl, rfl⟩
  rw [State.resetWith_mem, loadImages_read, Memory.read_ofFunction]

end Sys2Proof.Machine
end

section
/-! PROOFS. `MemRead` and the keyboard poll (spec/20_memory.md section 1). -/

namespace Sys2Proof.Machine

/-- Settles O55: `MemRead` polls at `KBSR_ADDR` and nowhere else. -/
theorem memReadIsPlainButAtKbsr : Obligations.MemReadIsPlainButAtKbsr := by
  refine ⟨fun a s plain => ?plain, fun s => ?kbsr⟩
  case plain => rw [memRead, fetched, touch_of_ne s plain]
  case kbsr => rw [memRead, fetched, touch_kbsr]

theorem memRead_of_ne {a : Word} (s : State) (plain : a ≠ kbsrAddr) :
    memRead a s = (s.mem.read a, s) := memReadIsPlainButAtKbsr.1 a s plain

/-! ## The poll by the answer of `IO.Avail` (R31) -/

theorem pollKeyboard_of_avail {s : State} (available : s.availAnswer = true) :
    ∃ c rest, s.input = c :: rest ∧
      pollKeyboard s = ((s.askAvail.takeChar c rest).poke kbdrAddr (zext16 c)).pokeKbsr true := by
  rcases pollKeyboard_cases s with ⟨c, rest, -, arrived, h⟩ | ⟨none, -⟩
  · exact ⟨c, rest, arrived, h⟩
  · exact absurd (available.symm.trans none) nofun

theorem pollKeyboard_of_not_avail {s : State} (unavailable : s.availAnswer = false) :
    pollKeyboard s = s.askAvail.pokeKbsr false := by
  rcases pollKeyboard_cases s with ⟨-, -, available, -⟩ | ⟨-, h⟩
  · exact absurd (available.symm.trans unavailable) nofun
  · exact h

/-- The status word a poll leaves. -/
theorem pollKeyboard_read_kbsr (s : State) :
    (pollKeyboard s).mem.read kbsrAddr =
      kbsrAfterPoll Config.kbsrLowBits s.availAnswer (s.mem.read kbsrAddr) := by
  cases avail : s.availAnswer with
  | true =>
    obtain ⟨c, rest, -, h⟩ := pollKeyboard_of_avail avail
    rw [h, State.pokeKbsr, State.poke_mem, Memory.read_write_self, State.poke_mem,
      Memory.read_write_ne _ _ (by decide)]
    rfl
  | false =>
    rw [pollKeyboard_of_not_avail avail, State.pokeKbsr, State.poke_mem, Memory.read_write_self]
    rfl

theorem pollKeyboard_avail (s : State) :
    (pollKeyboard s).avail = s.avail.tail ∧ (pollKeyboard s).availCalls = s.availCalls + 1 := by
  rcases pollKeyboard_cases s with ⟨c, rest, -, -, h⟩ | ⟨-, h⟩
  · rw [h]
    exact ⟨rfl, rfl⟩
  · rw [h]
    exact ⟨rfl, rfl⟩

/-- Settles O56: the frame is the poll's own; what it leaves at the two device registers, in the input and
in the record is read off its two cases. -/
theorem keyboardPoll : Obligations.KeyboardPoll := by
  intro s
  obtain ⟨regs, pc, cond, run, fault, pending, mem⟩ := pollKeyboard_frame s
  obtain ⟨avail, availCalls⟩ := pollKeyboard_avail s
  have status := pollKeyboard_read_kbsr s
  refine ⟨regs, pc, cond, ⟨run, fault, pending⟩, avail, availCalls, mem, fun available => ?found,
    fun unavailable => ?none⟩
  case found =>
    rw [available] at status
    obtain ⟨c, rest, arrived, polled⟩ := pollKeyboard_of_avail available
    refine ⟨c, rest, arrived, ?input, ?record, ?latch, fun preserve => ?preserve, fun clear => ?clear⟩
    case input => rw [polled]; rfl
    case record =>
      rw [polled, ← available]
      exact List.append_assoc ..
    case latch =>
      rw [polled, State.pokeKbsr, State.poke_mem, Memory.read_write_ne _ _ (by decide), State.poke_mem,
        ← zext16_eq_append]
      exact Memory.read_write_self ..
    case preserve => rwa [preserve] at status
    case clear => rwa [clear] at status
  case none =>
    rw [unavailable] at status
    have polled := pollKeyboard_of_not_avail unavailable
    refine ⟨?input, ?record, ?latch, fun preserve => ?preserve, fun clear => ?clear⟩
    case input => rw [polled]; rfl
    case record =>
      rw [polled, ← unavailable]
      rfl
    case latch =>
      rw [polled, State.pokeKbsr, State.poke_mem, Memory.read_write_ne _ _ (by decide)]
      rfl
    case preserve => rwa [preserve] at status
    case clear => rwa [clear] at status

/-- A word whose bits [14:0] are clear has no bit that bit 15 set would not give. -/
theorem or_bit15_of_clear {old : Word} (clear : old &&& 0x7FFF#16 = 0#16) :
    old ||| 0x8000#16 = 0x8000#16 := by
  have complement : ∀ i < 16, (0x7FFF#16).getLsbD i = !(0x8000#16).getLsbD i := by decide
  refine BitVec.eq_of_getLsbD_eq fun i hi => ?_
  have bit := congrArg (BitVec.getLsbD · i) clear
  simp only [BitVec.getLsbD_and, complement i hi, BitVec.getLsbD_zero] at bit
  rw [BitVec.getLsbD_or]
  cases high : (0x8000#16).getLsbD i with
  | true => exact Bool.or_true _
  | false =>
    rw [high, Bool.not_false, Bool.and_true] at bit
    rw [bit, Bool.or_false]

/-- With bits [14:0] clear both modes leave the same status word. -/
theorem kbsrAfterPoll_of_clear {old : Word} (clear : old &&& 0x7FFF#16 = 0#16) (mode : KbsrLowBits)
    (ready : Bool) : kbsrAfterPoll mode ready old = if ready then 0x8000#16 else 0x0000#16 := by
  cases mode with
  | clear => cases ready <;> rfl
  | preserve =>
    cases ready with
    | false => exact clear
    | true => exact or_bit15_of_clear clear

/-- Settles O57: the status word is `kbsrAfterPoll`'s, whose modes agree there. -/
theorem pollAgreesOnClearLowBits : Obligations.PollAgreesOnClearLowBits := by
  intro s clear
  exact (pollKeyboard_read_kbsr s).trans (kbsrAfterPoll_of_clear clear _ _)

end Sys2Proof.Machine
end

section
/-! PROOFS. The step (spec/40_cycle.md) and the exception (spec/60_exceptions.md): what a ready state's step
runs, where there is none, and what a word of the reserved family does. -/

namespace Sys2Proof.Machine

/-! ## The step -/

/-- Settles O11: `fetchWord` and `afterFetch` are the two halves of the fetch's `MemRead`. -/
theorem stepRunsDecodedInstruction : Obligations.StepRunsDecodedInstruction :=
  fun _ ready => step_of_ready ready

theorem step_of_fault {s : State} {r : FaultRecord} (fault : s.fault = some r) :
    step s = .fault (.illegalOpcode r.instr r.addr) := by
  rw [step, fault]

/-- Settles O12: the fault record is looked at first, then the run state. -/
theorem noStepAtTheEnds : Obligations.NoStepAtTheEnds := by
  refine ⟨fun s fault halted => ?_, fun _ _ => step_of_fault⟩
  rw [step, fault, halted]

/-- A ready state whose pc is plain fetches the word there and goes on unchanged but for pc. -/
theorem step_of_ready_of_ne {s : State} (ready : s.Ready) (plain : s.pc ≠ kbsrAddr) :
    step s = exec (decodeWord (s.mem.read s.pc)) (s.setPc (s.pc + 1#16)) := by
  rw [step_of_ready ready, fetchWord, afterFetch, memRead_of_ne s plain]

/-- Settles O59: the store leaves the state ready with the same pc, and is read back there. -/
theorem fetchSeesPrecedingStore : Obligations.FetchSeesPrecedingStore := by
  intro v s ready plain
  have ready' : (memWrite s.pc v s).Ready := ready
  have pc : (memWrite s.pc v s).pc = s.pc := State.poke_pc ..
  rw [step_of_ready_of_ne ready' (by rwa [pc]), pc, memWrite_read_self]

/-! ## The exception (R140) -/

/-- A reserved word raises with itself, whichever of the two rows it is of. -/
theorem exec_reservedWord {w : Word} (reserved : ReservedWord w) (s : State) :
    exec (decodeWord w) s = .next (raiseIllegalOpcode w s) := by
  rcases reserved with h | h
  · have whole : opcReserved8 ++ fieldRest w = w := append_fields_rest w h
    rw [decodeWord_reserved8 w h, exec, execReserved8, whole]
  · have whole : opcReserved13 ++ fieldRest w = w := append_fields_rest w h
    rw [decodeWord_reserved13 w h, exec, execReserved13, whole]

/-- Settles O53: the fetched word raises on the state the fetch left, where pc is one past its address;
the record set, no step follows. -/
theorem reservedWordRaisesIllegalOpcode : Obligations.ReservedWordRaisesIllegalOpcode := by
  intro s ready instr reserved
  have ⟨_, running, _⟩ := ready
  have address : (afterFetch s).pc - 1#16 = s.pc := BitVec.add_sub_cancel s.pc 1#16
  have record : (raiseIllegalOpcode instr (afterFetch s)).fault = some ⟨instr, s.pc⟩ := by
    rw [raiseIllegalOpcode_fault, address]
  refine ⟨raiseIllegalOpcode instr (afterFetch s), ?step, record, rfl, fun r _ => ?regs, ?cond, ?run,
    fun _ => rfl, ⟨rfl, rfl, rfl, rfl⟩, step_of_fault record⟩
  case step => exact (step_of_ready ready).trans (exec_reservedWord reserved _)
  case regs => exact touch_reg s.pc s r
  case cond => exact touch_cond s.pc s
  case run => exact (touch_run s.pc s).trans running

/-- Settles O54: the row's opcode and its 12 bits are the whole word, and the address is one below pc. -/
theorem reservedRowsTakeTheException : Obligations.ReservedRowsTakeTheException := by
  intro rest addr s pc
  have address : s.pc - 1#16 = addr := by rw [pc, BitVec.add_sub_cancel]
  constructor
  · rw [exec, execReserved8, raiseIllegalOpcode, address]
    rfl
  · rw [exec, execReserved13, raiseIllegalOpcode, address]
    rfl

end Sys2Proof.Machine
end

section
/-! PROOFS. Two corners of control transfer (spec/42_control.md R90, R94) and the pair STI, LDI
(spec/43_load_store.md R101). -/

namespace Sys2Proof.Machine

/-- Settles O37: with all three bits the branch test holds of every flag, with none of no flag. -/
theorem brAlwaysAndNever : Obligations.BrAlwaysAndNever := by
  intro off9 s
  have always : brTaken true true true s.cond = true := by cases s.cond <;> rfl
  have never : ¬ brTaken false false false s.cond = true := by cases s.cond <;> decide
  constructor
  · rw [exec, execBr, if_pos always]
    rfl
  · rw [exec, execBr, if_neg never]

/-- Bits [10:9] and [5:0] are ignored. -/
theorem decodeWord_jsrr_append (x : BitVec 2) (b : BitVec 3) (y : BitVec 6) :
    decodeWord (opcJsr ++ 0#1 ++ x ++ b ++ y) = .jsrr (regOf b) := by
  obtain ⟨opcode, bit11, base⟩ := fields_jr opcJsr b 0#1 x y
  rw [decodeWord_jsr _ opcode, bit11, base]
  rfl

/-- Settles O40: the base is read after the link, so it is the link itself for base 7. -/
theorem jsrrLinksThenReadsBase : Obligations.JsrrLinksThenReadsBase := by
  refine ⟨decodeWord_jsrr_append, fun base s => ⟨_, rfl, ?link, fun other => ?base, fun seven => ?seven⟩⟩
  case link => rw [State.setPc_reg, State.reg_setReg, if_pos rfl]
  case base =>
    rw [State.reg_setReg, if_neg other]
    exact controlResult_setPc (controlResult_setReg 7 s.pc s) _
  case seven =>
    rw [State.reg_setReg, if_pos seven]
    exact controlResult_setPc (controlResult_setReg 7 s.pc s) _

/-- STI where the pointer's read does not poll. -/
theorem exec_sti_of_pointer {off9 : BitVec 9} {s : State} {p : Word}
    (plain : pcRel9 off9 s ≠ kbsrAddr) (held : s.mem.read (pcRel9 off9 s) = p) (sr : Reg) :
    exec (.sti sr off9) s = .next (memWrite p (s.reg sr) s) := by
  rw [exec, execSti, pointer_of_unpolled plain.symm, held]

/-- LDI where neither read polls. -/
theorem exec_ldi_of_pointer {off9 : BitVec 9} {s : State} {p : Word}
    (plain : pcRel9 off9 s ≠ kbsrAddr) (held : s.mem.read (pcRel9 off9 s) = p)
    (plainPointer : p ≠ kbsrAddr) (dr : Reg) :
    exec (.ldi dr off9) s = .next (writeFlagged dr (s.mem.read p) s) := by
  rw [exec, execLdi, pointer_of_unpolled plain.symm, held, loadFlagged, memRead_of_ne s plainPointer]

/-- Settles O35: the store leaves the pointer cell alone, so the LDI follows the same pointer to the word
just stored; neither read polls. -/
theorem ldiReadsBackSti : Obligations.LdiReadsBackSti := by
  intro sr dr off off' s plainCell plainPointer otherCell sameCell
  generalize held : s.mem.read (s.pc + off.signExtend 16) = p at plainPointer otherCell
  have kept : (memWrite p (s.reg sr) s).mem.read (s.pc + 1#16 + off'.signExtend 16) = p := by
    rw [sameCell, memWrite_read_ne _ _ _ otherCell.symm, held]
  have plainCell' : s.pc + 1#16 + off'.signExtend 16 ≠ kbsrAddr := by rwa [sameCell]
  have loaded := exec_ldi_of_pointer (s := (memWrite p (s.reg sr) s).setPc (s.pc + 1#16)) plainCell'
    kept plainPointer dr
  refine ⟨memWrite p (s.reg sr) s, _, exec_sti_of_pointer plainCell held sr, loaded, ?_⟩
  rw [writeFlagged_reg, if_pos rfl]
  exact memWrite_read_self p (s.reg sr) s

end Sys2Proof.Machine
end

section
/-! PROOFS. TRAP and the services that end at once or wait for a character (spec/44_trap.md): R7 is written
by trap entry and by nothing after it; a read completes on the frame that entry and prompt leave, or waits
in a state that steps to itself. -/

namespace Sys2Proof.Machine

/-! ## The dispatcher (R120) -/

theorem serviceGetc_avail (s : State) : (serviceGetc s).avail = s.avail := by
  rcases serviceGetc_cases s with ⟨-, waits⟩ | ⟨c, rest, -, reads⟩
  · rw [waits, State.setPending_avail]
  · rw [reads]
    rfl

theorem finishIn_avail (s : State) : (finishIn s).avail = s.avail := by
  rcases finishIn_cases s with ⟨-, waits⟩ | ⟨c, rest, -, reads⟩
  · rw [waits, State.setPending_avail]
  · rw [reads]
    rfl

theorem serviceString_avail (chars : Word → List Byte) (again : Service) (a : Word) (s : State) :
    (serviceString chars again a s).avail = s.avail := by
  obtain ⟨-, -, -, -, avail, -⟩ := serviceString_frame chars again a s
  exact avail

/-- No service asks `IO.Avail` (R22, R23). -/
theorem dispatchTrap_avail (v : BitVec 8) (s : State) : (dispatchTrap v s).avail = s.avail := by
  rcases dispatchTrap_cases v s with
    ⟨-, getc⟩ | ⟨-, out⟩ | ⟨-, puts⟩ | ⟨-, inp⟩ | ⟨-, putsp⟩ | ⟨-, halt⟩ | ⟨-, other⟩
  · rw [getc, serviceGetc_avail]
  · rw [out]; exact State.log_avail ..
  · rw [puts]; exact serviceString_avail ..
  · rw [inp, finishIn_avail]; exact State.log_avail ..
  · rw [putsp]; exact serviceString_avail ..
  · rw [halt]; exact State.setRun_avail ..
  · rw [other]

/-- Bits [11:8] are ignored. -/
theorem decodeWord_trap_append (x : BitVec 4) (v : BitVec 8) :
    decodeWord (opcTrap ++ x ++ v) = canonical (.trap v) := by
  obtain ⟨opcode, vect⟩ := fields_t8 opcTrap x v
  rw [decodeWord_trap _ opcode, vect, canonical_trap]

/-- Settles O41: a TRAP is the dispatcher after trap entry, and each clause is one of its frames. -/
theorem trapLinksAndDispatches : Obligations.TrapLinksAndDispatches := by
  refine ⟨decodeWord_trap_append, rfl, rfl, rfl, rfl, rfl, rfl,
    fun v notGetc notOut notPuts notIn notPutsp notHalt => ?other,
    fun v s => ⟨dispatchTrap v (enterTrap s), rfl, ?row, ?link, fun r except => ?regs,
      fun notGetc notIn => ?noRead, ?pc, fun a => ?mem, ?fault, ?avail, fun notHalt => ?run⟩⟩
  case other =>
    exact decodeTrap_of_not_service (by
      simp [serviceVectors, notGetc, notOut, notPuts, notIn, notPutsp, notHalt])
  case row => exact exec_decodeTrap v s
  case link => rw [dispatchTrap_reg v _ (by decide), reg_enterTrap, if_pos rfl]
  case regs =>
    obtain ⟨not0, not7⟩ : r ≠ 0 ∧ r ≠ 7 := by simpa using except
    rw [dispatchTrap_reg v _ not0, reg_enterTrap, if_neg not7]
  case noRead =>
    obtain ⟨reg0, input⟩ := dispatchTrap_reads_nothing (enterTrap s) notGetc notIn
    have entered : (enterTrap s).reg 0 = s.reg 0 := by rw [reg_enterTrap, if_neg (by decide)]
    exact ⟨reg0.trans entered, dispatchTrap_cond _ notGetc notIn, input⟩
  case pc => exact dispatchTrap_pc v (enterTrap s)
  case mem => rw [dispatchTrap_mem, enterTrap_mem]
  case fault => exact dispatchTrap_fault v (enterTrap s)
  case avail => exact dispatchTrap_avail v (enterTrap s)
  case run => exact dispatchTrap_run (enterTrap s) notHalt

/-- Settles O42: the meaning is trap entry alone. -/
theorem trapOtherOnlyLinks : Obligations.TrapOtherOnlyLinks :=
  fun _ s => ⟨enterTrap s, rfl, outputResult_enterTrap s, enterTrap_pending s⟩

/-- Settles O52: HALT is trap entry and a write of the run state. -/
theorem haltStopsTheRun : Obligations.HaltStopsTheRun := by
  intro s
  obtain ⟨link, regs, pc, cond, mem, -⟩ := outputResult_enterTrap s
  exact ⟨serviceHalt (enterTrap s), rfl, rfl, link, regs, pc, cond, mem, ⟨rfl, rfl, rfl, rfl⟩, rfl,
    rfl⟩

/-! ## Reading a character (R122, R130) -/

theorem State.log_nil (s : State) : s.log [] = s := by
  rw [State.log, List.append_nil]

/-- A character read after output alone: R0 and its flag are written last. -/
theorem inputResult_of_output {s u : State} {es : List IoEvent} (before : OutputResult s u es)
    (c : Byte) (rest : List Byte) (fs : List IoEvent) :
    InputResult s (writeFlagged 0 (zext16 c) (((u.takeChar c rest).log fs).setPending none)) c rest
      (es ++ .readChar c :: fs) := by
  obtain ⟨link, regs, pc, -, mem, -, avail, availCalls, record, run, fault⟩ := before
  refine ⟨?link, ?value, ?flag, fun r except => ?regs, pc, mem, rfl, avail, availCalls, ?record, run,
    fault, rfl⟩
  case link =>
    rw [writeFlagged_reg, if_neg (by decide)]
    exact link
  case value => rw [writeFlagged_reg, if_pos rfl, zext16_eq_append]
  case flag =>
    rw [writeFlagged_cond, zext16_eq_append]
    exact flagOf_classify _
  case regs =>
    obtain ⟨not0, not7⟩ := List.ne_and_not_mem_of_not_mem_cons except
    rw [writeFlagged_reg, if_neg not0]
    exact regs r not7
  case record =>
    rw [writeFlagged_record, State.setPending_record, State.log_record, State.takeChar_record, record,
      List.append_assoc, List.append_assoc, List.singleton_append]

theorem serviceGetc_of_char {s : State} {c : Byte} {rest : List Byte} (arrived : s.input = c :: rest) :
    serviceGetc s = writeFlagged 0 (zext16 c) (((s.takeChar c rest).log []).setPending none) := by
  rw [serviceGetc, arrived, State.log_nil]

theorem finishIn_of_char {s : State} {c : Byte} {rest : List Byte} (arrived : s.input = c :: rest) :
    finishIn s = writeFlagged 0 (zext16 c)
      (((s.takeChar c rest).log [.writeChar c, .flush]).setPending none) := by
  rw [finishIn, arrived]

/-- Settles O43: GETC reads right after trap entry and writes nothing out. -/
theorem getcReadsCharacter : Obligations.GetcReadsCharacter := by
  intro s c rest arrived
  have entered : (enterTrap s).input = c :: rest := arrived
  refine ⟨serviceGetc (enterTrap s), rfl, ?_⟩
  rw [serviceGetc_of_char entered]
  exact inputResult_of_output (outputResult_enterTrap s) c rest []

theorem outputResult_promptIn (s : State) :
    OutputResult s (promptIn (enterTrap s)) (Config.inPrompt.map .writeChar) :=
  outputResult_log (outputResult_enterTrap s) _

/-- Settles O44: IN reads after the prompt and writes the echo and the flush before R0. -/
theorem inPromptsReadsAndEchoes : Obligations.InPromptsReadsAndEchoes := by
  intro s c rest arrived
  have prompted : (promptIn (enterTrap s)).input = c :: rest := arrived
  refine ⟨finishIn (promptIn (enterTrap s)), rfl, ?_⟩
  rw [finishIn_of_char prompted]
  exact inputResult_of_output (outputResult_promptIn s) c rest _

/-! ## Waiting for a character (R22, R121) -/

theorem serviceGetc_of_empty {s : State} (empty : s.input = []) :
    serviceGetc s = s.setPending (some .getc) := by
  rw [serviceGetc, empty]

theorem finishIn_of_empty {s : State} (empty : s.input = []) :
    finishIn s = s.setPending (some .inp) := by
  rw [finishIn, empty]

/-- A read that waits steps to itself. -/
theorem step_of_waiting {s : State} {v : Service} (reads : v = .getc ∨ v = .inp)
    (empty : s.input = []) (fault : s.fault = none) (run : s.run = .running) :
    step (s.setPending (some v)) = .next (s.setPending (some v)) := by
  rw [step_of_pending (s := s.setPending (some v)) fault run rfl]
  rcases reads with rfl | rfl
  · exact congrArg Host.Outcome.next (serviceGetc_of_empty (s := s.setPending (some .getc)) empty)
  · exact congrArg Host.Outcome.next (finishIn_of_empty (s := s.setPending (some .inp)) empty)

/-- What is left while a read waits: the frame of the output so far, in a state that steps to itself. -/
theorem waiting_result {s u : State} {es : List IoEvent} {v : Service} (before : OutputResult s u es)
    (reads : v = .getc ∨ v = .inp) (empty : s.input = []) (fault : s.fault = none)
    (run : s.run = .running) :
    (u.setPending (some v)).pending ≠ none ∧ (u.setPending (some v)).reg 7 = s.pc ∧
      s.SameRegsExcept (u.setPending (some v)) [7] ∧ (u.setPending (some v)).pc = s.pc ∧
      (u.setPending (some v)).cond = s.cond ∧ s.SameMemory (u.setPending (some v)) ∧
      step (u.setPending (some v)) = .next (u.setPending (some v)) := by
  obtain ⟨link, regs, pc, cond, mem, input, -, -, -, run', fault'⟩ := before
  exact ⟨Option.some_ne_none v, link, regs, pc, cond, mem,
    step_of_waiting reads (input.trans empty) (fault'.trans fault) (run'.trans run)⟩

/-- Settles O45: GETC waits after trap entry, IN after its prompt. -/
theorem blockedReadWaits : Obligations.BlockedReadWaits := by
  intro i s reads empty fault run
  rcases reads with rfl | rfl
  · refine ⟨(enterTrap s).setPending (some .getc), ?_,
      waiting_result (outputResult_enterTrap s) (.inl rfl) empty fault run⟩
    rw [exec, execGetc, serviceGetc_of_empty (s := enterTrap s) empty]
  · refine ⟨(promptIn (enterTrap s)).setPending (some .inp), ?_,
      waiting_result (outputResult_promptIn s) (.inr rfl) empty fault run⟩
    rw [exec, execIn, finishIn_of_empty (s := promptIn (enterTrap s)) empty]

/-- Settles O46: the waiting state differs from the one the instruction would have read in only by the
service in progress, which a completed read overwrites. -/
theorem blockedReadResumes : Obligations.BlockedReadResumes := by
  intro i s c rest reads empty fault run
  rcases reads with rfl | rfl
  · refine ⟨(enterTrap s).setPending (some .getc), ?_, ?_⟩
    · rw [exec, execGetc, serviceGetc_of_empty (s := enterTrap s) empty]
    · exact step_of_pending (v := .getc) fault run rfl
  · refine ⟨(promptIn (enterTrap s)).setPending (some .inp), ?_, ?_⟩
    · rw [exec, execIn, finishIn_of_empty (s := promptIn (enterTrap s)) empty]
    · exact step_of_pending (v := .inp) fault run rfl

end Sys2Proof.Machine
end

section
/-! PROOFS. PUTS and PUTSP (spec/44_trap.md sections 4 and 6): a scan up to the first zero word completes
with the characters of the words before it; a scan that meets none writes a whole turn at every step, and
the turns join to the characters of ever more words in cyclic order. -/

namespace Sys2Proof.Machine

/-- The output events of the words at a, a + 1, …: those of the k-th word. -/
def wordEvents (chars : Word → List Byte) (m : Memory) (a : Word) (k : Nat) : List IoEvent :=
  (chars (m.read (a + BitVec.ofNat 16 k))).map .writeChar

/-- The output events of the first n words at a, in cyclic order. -/
def scanEvents (chars : Word → List Byte) (m : Memory) (a : Word) (n : Nat) : List IoEvent :=
  (List.range n).flatMap (wordEvents chars m a)

/-! ## The characters of a word -/

theorem scanEvents_puts (m : Memory) (a : Word) (n : Nat) :
    scanEvents putsChars m a n = (List.range n).map fun k =>
      .writeChar ((m.read (a + BitVec.ofNat 16 k)).extractLsb' 0 8) :=
  List.map_eq_flatMap.symm

/-- The high byte is zero exactly in the words below 256. -/
theorem highByte_eq_zero_iff (w : Word) : highByte w = 0#8 ↔ w.toNat < 256 := by
  have value : (highByte w).toNat = w.toNat / 2 ^ 8 % 2 ^ 8 := toNat_field w 8 8
  have bound := w.isLt
  constructor
  · intro zero
    rw [zero, BitVec.toNat_ofNat] at value
    omega
  · intro small
    refine BitVec.eq_of_toNat_eq ?_
    rw [value, BitVec.toNat_ofNat]
    omega

theorem putspChars_events (w : Word) :
    (putspChars w).map .writeChar =
      if w.toNat < 256 then [IoEvent.writeChar (w.extractLsb' 0 8)]
      else [.writeChar (w.extractLsb' 0 8), .writeChar (w.extractLsb' 8 8)] := by
  unfold putspChars
  by_cases small : w.toNat < 256
  · rw [if_pos ((highByte_eq_zero_iff w).mpr small), if_pos small]
    rfl
  · rw [if_neg (mt (highByte_eq_zero_iff w).mp small), if_neg small]
    rfl

theorem scanEvents_putsp (m : Memory) (a : Word) (n : Nat) :
    scanEvents putspChars m a n = (List.range n).flatMap fun k =>
      let w := m.read (a + BitVec.ofNat 16 k)
      if w.toNat < 256 then [IoEvent.writeChar (w.extractLsb' 0 8)]
      else [.writeChar (w.extractLsb' 0 8), .writeChar (w.extractLsb' 8 8)] :=
  congrArg (List.range n).flatMap (funext fun _ => putspChars_events _)

/-! ## A scan that meets a zero word (R126, R132) -/

theorem serviceString_of_zero (chars : Word → List Byte) (again : Service) {a : Word} {s : State}
    {n : Nat} (inTurn : n < 65536) (zero : s.mem.read (a + BitVec.ofNat 16 n) = 0#16)
    (nonzero : ∀ k < n, s.mem.read (a + BitVec.ofNat 16 k) ≠ 0#16) :
    serviceString chars again a s =
      (s.log (scanEvents chars s.mem a n ++ [.flush])).setPending none := by
  rw [serviceString, stringWords_of_zero s.mem 65536 n a inTurn zero nonzero, if_pos rfl,
    List.flatMap_map, List.map_flatMap]
  rfl

theorem outputResult_logged (s : State) (es : List IoEvent) :
    OutputResult s ((enterTrap s).log es) es :=
  outputResult_log (outputResult_enterTrap s) es

/-- The service in progress is no part of the frame. -/
theorem outputResult_setPending {s t : State} {es : List IoEvent} (before : OutputResult s t es)
    (p : Option Service) : OutputResult s (t.setPending p) es := before

/-- A string service from trap entry, whose operand R0 trap entry keeps. -/
theorem string_completes (chars : Word → List Byte) (again : Word → Service) {s : State} {n : Nat}
    (inTurn : n < 65536) (zero : s.mem.read (s.reg 0 + BitVec.ofNat 16 n) = 0#16)
    (nonzero : ∀ k < n, s.mem.read (s.reg 0 + BitVec.ofNat 16 k) ≠ 0#16) :
    OutputResult s (serviceString chars (again (s.reg 0)) (s.reg 0) (enterTrap s))
      (scanEvents chars s.mem (s.reg 0) n ++ [.flush]) ∧
    (serviceString chars (again (s.reg 0)) (s.reg 0) (enterTrap s)).pending = none := by
  rw [serviceString_of_zero (s := enterTrap s) chars _ inTurn zero nonzero]
  exact ⟨outputResult_setPending (outputResult_logged s _) none, State.setPending_pending ..⟩

theorem enterTrap_reg_zero (s : State) : (enterTrap s).reg 0 = s.reg 0 := by
  rw [reg_enterTrap, if_neg (by decide)]

theorem exec_puts (s : State) :
    exec .puts s = .next (serviceString putsChars (.puts (s.reg 0)) (s.reg 0) (enterTrap s)) := by
  rw [exec, execPuts, servicePuts, enterTrap_reg_zero]

theorem exec_putsp (s : State) :
    exec .putsp s = .next (serviceString putspChars (.putsp (s.reg 0)) (s.reg 0) (enterTrap s)) := by
  rw [exec, execPutsp, servicePutsp, enterTrap_reg_zero]

/-- Settles O48: the scan is the first n words, one character each. -/
theorem putsWritesString : Obligations.PutsWritesString := by
  intro s n inTurn zero nonzero
  obtain ⟨output, pending⟩ := string_completes putsChars .puts inTurn zero nonzero
  rw [scanEvents_puts] at output
  exact ⟨_, exec_puts s, pending, output⟩

/-- Settles O49: the scan is the first n words, one or two characters each. -/
theorem putspWritesPackedString : Obligations.PutspWritesPackedString := by
  intro s n inTurn zero nonzero
  obtain ⟨output, pending⟩ := string_completes putspChars .putsp inTurn zero nonzero
  rw [scanEvents_putsp] at output
  exact ⟨_, exec_putsp s, pending, output⟩

/-! ## A memory with no zero word (R129) -/

/-- After a turn the scan is back where it began. -/
theorem wordEvents_add_turn (chars : Word → List Byte) (m : Memory) (a : Word) (k : Nat) :
    wordEvents chars m a (65536 + k) = wordEvents chars m a k := by
  have wraps : BitVec.ofNat 16 (65536 + k) = BitVec.ofNat 16 k := by
    refine BitVec.eq_of_toNat_eq ?_
    rw [BitVec.toNat_ofNat, BitVec.toNat_ofNat]
    omega
  rw [wordEvents, wraps, wordEvents]

theorem scanEvents_add_turn (chars : Word → List Byte) (m : Memory) (a : Word) (n : Nat) :
    scanEvents chars m a (65536 + n) = scanEvents chars m a 65536 ++ scanEvents chars m a n := by
  rw [scanEvents, List.range_add, List.flatMap_append, List.flatMap_map]
  simp only [wordEvents_add_turn]
  rfl

theorem State.log_append (s : State) (es fs : List IoEvent) :
    (s.log es).log fs = s.log (es ++ fs) := by
  rw [State.log, State.log, State.log, List.append_assoc]

/-- A scan begun with no zero word in memory is, k steps on, still in progress, and has written k + 1
turns. -/
theorem run_scan_of_nonzero {chars : Word → List Byte} {again : Service} {a : Word}
    (resumes : ∀ s, resume again s = serviceString chars again a s) (k : Nat) {s : State}
    (fault : s.fault = none) (run : s.run = .running) (nonzero : ∀ b, s.mem.read b ≠ 0#16) :
    Sys2Proof.core.run k (serviceString chars again a s) =
      .next ((s.log (scanEvents chars s.mem a (65536 * (k + 1)))).setPending (some again)) := by
  have turn : ∀ {u : State}, (∀ b, u.mem.read b ≠ 0#16) → serviceString chars again a u =
      (u.log (scanEvents chars u.mem a 65536)).setPending (some again) :=
    fun h => serviceString_of_nonzero chars again a _ h
  induction k generalizing s with
  | zero => rw [turn nonzero]; rfl
  | succ k ih =>
    have next : step (serviceString chars again a s) =
        .next (serviceString chars again a (serviceString chars again a s)) := by
      rw [← resumes (serviceString chars again a s), turn nonzero]
      exact step_of_pending (v := again) fault run rfl
    have events : scanEvents chars s.mem a (65536 * (k + 1 + 1)) =
        scanEvents chars s.mem a 65536 ++ scanEvents chars s.mem a (65536 * (k + 1)) := by
      rw [Nat.mul_succ, Nat.add_comm, scanEvents_add_turn]
    rw [core_run_succ k next, turn nonzero, events, ← State.log_append]
    exact ih (s := (s.log (scanEvents chars s.mem a 65536)).setPending (some again)) fault run nonzero

/-- A string service from trap entry with no zero word in memory (R129). -/
theorem string_never_ends {chars : Word → List Byte} {again : Service} {s : State}
    (resumes : ∀ u, resume again u = serviceString chars again (s.reg 0) u) (k : Nat)
    (fault : s.fault = none) (run : s.run = .running) (nonzero : ∀ b, s.mem.read b ≠ 0#16) :
    ∃ u, Sys2Proof.core.run k (serviceString chars again (s.reg 0) (enterTrap s)) = .next u ∧
      u.pending = some again ∧
      OutputResult s u (scanEvents chars s.mem (s.reg 0) (65536 * (k + 1))) := by
  have ran := run_scan_of_nonzero (s := enterTrap s) resumes k fault run nonzero
  rw [enterTrap_mem] at ran
  exact ⟨_, ran, State.setPending_pending .., outputResult_setPending (outputResult_logged s _) _⟩

/-- Settles O50: each turn writes every word's low byte and leaves the scan where it began. -/
theorem stringWithoutZeroNeverEnds : Obligations.StringWithoutZeroNeverEnds := by
  intro s k fault run nonzero
  obtain ⟨u, ran, pending, link, regs, pc, cond, mem, -, -, -, record, -⟩ :=
    string_never_ends (again := .puts (s.reg 0)) (fun _ => rfl) k fault run nonzero
  rw [scanEvents_puts] at record
  exact ⟨_, u, exec_puts s, ran, pending, pc, cond, link, regs, mem, record⟩

/-- Every word writes a character, so a scan writes at least as many as it has words. -/
theorem le_length_scanEvents {chars : Word → List Byte} (writes : ∀ w, chars w ≠ []) (m : Memory)
    (a : Word) (n : Nat) : n ≤ (scanEvents chars m a n).length := by
  have each : ∀ l ∈ (List.range n).map fun k => (wordEvents chars m a k).length, 1 ≤ l := by
    intro l h
    obtain ⟨k, -, rfl⟩ := List.mem_map.mp h
    rw [wordEvents, List.length_map]
    exact List.length_pos_iff.mpr (writes _)
  have bound := List.length_le_sum_of_one_le _ each
  rwa [List.length_map, List.length_range, ← List.length_flatMap] at bound

theorem putspChars_ne_nil (w : Word) : putspChars w ≠ [] := by
  unfold putspChars
  split
  · exact List.cons_ne_nil _ _
  · exact List.cons_ne_nil _ _

/-- Settles O51: as for PUTS, with one or two characters a word, so at least 65536 a turn. -/
theorem packedStringWithoutZeroNeverEnds : Obligations.PackedStringWithoutZeroNeverEnds := by
  intro s k fault run nonzero
  obtain ⟨u, ran, pending, link, regs, pc, cond, mem, -, -, -, record, -⟩ :=
    string_never_ends (again := .putsp (s.reg 0)) (fun _ => rfl) k fault run nonzero
  have grown : s.record.length + 65536 * (k + 1) ≤ u.record.length := by
    rw [record, List.length_append]
    exact Nat.add_le_add_left (le_length_scanEvents putspChars_ne_nil _ _ _) _
  rw [scanEvents_putsp] at record
  exact ⟨_, u, exec_putsp s, ran, pending, pc, cond, link, regs, mem, grown, record⟩

end Sys2Proof.Machine
end
